-- ==== Sys2Proof/Word.lean ====
section
/-! DEFINITION. The word types of the host register port: every transaction moves one 32-bit word
(R72, R73), whose bytes the platform may number (R72). -/

namespace Sys2Proof

/-- The 32-bit word one register transaction moves (R8, R72). -/
abbrev Word := BitVec 32

/-- One byte of a word, where the platform numbers bytes (R72). -/
abbrev Byte := BitVec 8

end Sys2Proof
end

