-- ==== Sys2Proof/Syntax.lean ====
section
/-! DEFINITION. The instructions: one constructor per row of spec/opcode_table.json. The three
commands have no operand fields (R90, R92); the two CTRL actions carry the fields their row leaves free
(R24, R183 to R185). -/

namespace Sys2Proof

/-- An instruction of the block, started by one host write. -/
inductive Instr
  /-- `CMD = 0x00000001` (R91, R117). -/
  | powmod
  /-- `CMD = 0x00000002` (R91, R150). -/
  | mrTest
  /-- `CMD = 0x00000003` (R91, R151). -/
  | mrTrial
  /-- A write of CTRL with bit 1 set and bit 2 clear (R184): bit 0 is stored as IRQ_EN, bits 31:3 are
  ignored. -/
  | abort (irqEn : Bool) (ignored : BitVec 29)
  /-- A write of CTRL with bit 2 set (R185): bit 0 is discarded, bit 1 has no effect, bits 31:3 are
  ignored. -/
  | srst (irqEn : Bool) (abortBit : Bool) (ignored : BitVec 29)
deriving DecidableEq, Repr

end Sys2Proof
end

