-- ==== Sys2Proof/Config.lean ====
section
/-! DEFINITION. What an implementation of the block fixes (R6, R7) and the free values: what the
spec leaves open about the working registers after a reset (R230, S1). -/

namespace Sys2Proof

/-- The two parameters of the block: the operand width `W = 32 * limbs` (R6) and the byte address of
register offset 0 (R7). They are not state of the block (R20) and no step writes them. -/
structure Config where
  /-- `L`, the number of 32-bit limbs of an operand (R6). -/
  limbs : Nat
  /-- `BASE` (R7). -/
  base : Nat
deriving DecidableEq, Repr

namespace Config

/-- `W` (R6). -/
def width (c : Config) : Nat := 32 * c.limbs

/-- The configuration State.reset has: the width of the spec's test vectors, W = 32, at BASE 0.
DESIGN CHOICE (entry 1), unsafe: R6 and R7 leave both open; State.resetWith takes any configuration. -/
def smallest : Config := { limbs := 1, base := 0 }

/-- FREE VALUE (entry 3), safe: what register number `reg` of the working registers (and `rnd_bound`)
holds after reset number `k`. R230 calls them unspecified (any value); nothing constrains this. -/
opaque freeValue : (k reg : Nat) → Nat

end Config

end Sys2Proof
end

