-- ==== Sys2Proof/WellFormed.lean ====
section
/-! DEFINITION. Well-formedness. An instruction's fields have the exact width its encoding gives them,
so every term of Instr is well formed; what can be ill formed is the block's configuration (R6, R7). The
legality of a host transaction (R73, R74) is a rule of the machine and stands in
Machine/RegisterMap.lean. -/

namespace Sys2Proof

/-- Every instruction is well formed: a command has no fields (R90), and the fields of the two CTRL
actions admit every value (R24: `Every value of IRQ_EN is legal`, bits 31:3 are ignored). -/
def Instr.wellFormed : Instr → Bool
  | .powmod => true
  | .mrTest => true
  | .mrTrial => true
  | .abort _ _ => true
  | .srst _ _ _ => true

namespace Config

/-- `W` is a multiple of 32 between 32 and 8192 (R6); `BASE` is a multiple of 0x2000 (R7). -/
abbrev Legal (c : Config) : Prop := 1 ≤ c.limbs ∧ c.limbs ≤ 256 ∧ c.base % 0x2000 = 0

end Config

end Sys2Proof
end

