-- ==== Sys2Proof/Decode.lean ====
section
/-! DEFINITION. The decoder, total on any write, and the encoder. An instruction's encoding is one host
write: the register's offset and the word written (R90, R91, R184, R185). Word 2 means one thing at CMD
and another at CTRL, so decoding starts from the pair. -/

namespace Sys2Proof

/-- Why a write carries no instruction. -/
inductive Reject
  /-- A word other than 1, 2, 3 written to CMD (R97); the machine answers it with ILLEGAL_CMD. -/
  | illegalCommand
  /-- A CTRL write with neither action bit set (R183): it only stores IRQ_EN. -/
  | noControlAction
  /-- A write to a register that starts nothing. -/
  | notACommandRegister
  /-- Not four bytes: there is no access of another width (R73). -/
  | notOneWord
deriving DecidableEq, Repr

/-- Offset of `CTRL` (R24). -/
def ctrlOffset : Nat := 0x008

/-- Offset of `CMD` (R26). -/
def cmdOffset : Nat := 0x010

/-- The word of a command: RSVD[31:8] must be 0 and OPCODE[7:0] one of 1, 2, 3 (R90, R91, R96, R97). -/
def decodeCmd (w : Word) : Except Reject Instr :=
  if w.extractLsb' 8 24 ≠ 0 then .error .illegalCommand
  else
    match (w.extractLsb' 0 8).toNat with
    | 0x01 => .ok .powmod
    | 0x02 => .ok .mrTest
    | 0x03 => .ok .mrTrial
    | _ => .error .illegalCommand

/-- The word of a CTRL action: SRST (bit 2) wins over ABORT (bit 1) (R183). -/
def decodeCtrl (w : Word) : Except Reject Instr :=
  if w.getLsbD 2 then .ok (.srst (w.getLsbD 0) (w.getLsbD 1) (w.extractLsb' 3 29))
  else if w.getLsbD 1 then .ok (.abort (w.getLsbD 0) (w.extractLsb' 3 29))
  else .error .noControlAction

/-- The instruction that the write of word `w` at offset `off` starts. -/
def decodeWrite (off : Nat) (w : Word) : Except Reject Instr :=
  if off = cmdOffset then decodeCmd w
  else if off = ctrlOffset then decodeCtrl w
  else .error .notACommandRegister

/-- A word from its bytes, byte 0 holding bits 7:0 (R72). -/
def wordOfBytes (b0 b1 b2 b3 : Byte) : Word := b3 ++ b2 ++ b1 ++ b0

/-- The instruction started by writing these bytes at ascending addresses from offset `off` (R72);
anything but four bytes is no access of the block (R73). -/
def decodeBytes (off : Nat) : List Byte → Except Reject Instr
  | [b0, b1, b2, b3] => decodeWrite off (wordOfBytes b0 b1 b2 b3)
  | _ => .error .notOneWord

/-- The word of an instruction, from the field places of R24 and the opcode map of R91. -/
def encodeWord : Instr → Word
  | .powmod => (0x000000#24) ++ (0x01#8)
  | .mrTest => (0x000000#24) ++ (0x02#8)
  | .mrTrial => (0x000000#24) ++ (0x03#8)
  | .abort irqEn ignored => ignored ++ 0#1 ++ 1#1 ++ BitVec.ofBool irqEn
  | .srst irqEn abortBit ignored => ignored ++ 1#1 ++ BitVec.ofBool abortBit ++ BitVec.ofBool irqEn

/-- The register an instruction is written to. -/
def encodeOffset : Instr → Nat
  | .powmod => cmdOffset
  | .mrTest => cmdOffset
  | .mrTrial => cmdOffset
  | .abort _ _ => ctrlOffset
  | .srst _ _ _ => ctrlOffset

/-- The write that is the encoding of an instruction: offset and word. -/
def encode (i : Instr) : Nat × Word := (encodeOffset i, encodeWord i)

/-- The four bytes of an instruction's word, byte 0 first (R72). -/
def encodeBytes (i : Instr) : List Byte :=
  [(encodeWord i).extractLsb' 0 8, (encodeWord i).extractLsb' 8 8,
   (encodeWord i).extractLsb' 16 8, (encodeWord i).extractLsb' 24 8]

/-- The write a row's bits of spec/opcode_table.json stand for. The table does not number the register,
and the words 2 and 3 are a command at CMD and an ABORT at CTRL. DESIGN CHOICE (entry 9), safe: a word
that CMD accepts is a CMD write, since its row fixes all 32 bits; any other word with an action bit is a
CTRL write; the rest are CMD writes (illegal ones, R97). Bits above `nbits` are 0. -/
def tableWrite (nbits w : Nat) : Nat × Word :=
  let word : Word := BitVec.ofNat 32 (w % 2 ^ nbits)
  match decodeCmd word with
  | .ok _ => (cmdOffset, word)
  | .error _ =>
    match decodeCtrl word with
    | .ok _ => (ctrlOffset, word)
    | .error _ => (cmdOffset, word)

/-- The instruction the decoder reads from a row's bits (entry 9); no row is longer than one word. -/
def decodeTableWord (nbits w : Nat) : Option Instr :=
  if nbits ≤ 32 then
    match decodeWrite (tableWrite nbits w).1 (tableWrite nbits w).2 with
    | .ok i => some i
    | .error _ => none
  else none

end Sys2Proof
end

