-- ==== Sys2Proof/Machine/State.lean ====
section
/-! DEFINITION. The state, as plain data: the block's own state (R20: host-visible registers, working
registers, sequencer state, random-request state) in `Block`, its parameters in `Config`, and, in `State`
beside them, the environment the one step function reads: the host's remaining transactions, whose turn
it is, the random source's answers. -/

namespace Sys2Proof.Machine

/-- The accepted command (working register `op`, R39). -/
inductive Opcode
  | powmod
  | mrTest
  | mrTrial
deriving DecidableEq, Repr

/-- The sequencer states (R40). Codes 8 to 15 are never taken, so they have no constructor. -/
inductive SeqState
  | idle
  | pmLoop
  | mrCheck
  | mrDecomp
  | mrNext
  | mrDraw
  | mrPow
  | mrChain
deriving DecidableEq, Repr

/-- The error codes (R200). Codes 7 to 15 are never produced, so they have no constructor. -/
inductive ErrCode
  | noError
  | illegalCmd
  | modulusZero
  | iterZero
  | witnessRange
  | rndFault
  | aborted
deriving DecidableEq, Repr

/-- The working registers (R39), invisible to the host. The W-bit ones are unsigned integers below
`2^W` (R10, R11; entry 12), the others have the fixed width R39 gives. -/
structure Working where
  op : Opcode
  /-- modulus or candidate snapshot -/
  n : Nat
  /-- PowMod base, squared each iteration -/
  b : Nat
  /-- PowMod remaining exponent -/
  e : Nat
  /-- PowMod accumulator -/
  v : Nat
  /-- odd part of `n - 1` -/
  r : Nat
  /-- power of two in `n - 1` -/
  s : BitVec 16
  /-- squaring-chain value -/
  y : Nat
  /-- squaring-chain index -/
  j : BitVec 16
  /-- `MR_TRIAL` witness snapshot of `win(A)` -/
  wa : Nat
  /-- witness of the current trial -/
  w : Nat
  /-- number of trials to run -/
  eff : BitVec 32
  /-- trials begun so far -/
  trials : BitVec 32
  /-- random values consumed so far, saturating -/
  draws : BitVec 32
deriving DecidableEq, Repr

/-- The state of the block (R20). A window is the list of its `L` limbs, least significant first (R31).
`ID`, `PARAM` and `CMD` hold no state of their own (R22, R23, R26); `BUSY`, `ERR` and `STATE` are views
(R25). -/
structure Block where
  /-- `CTRL.IRQ_EN` (R24) -/
  irqEn : Bool
  /-- `STATUS.DONE` (R25) -/
  done : Bool
  /-- `STATUS.OVR` (R25) -/
  ovr : Bool
  /-- `STATUS.ERR_CODE` (R25, R200) -/
  errCode : ErrCode
  /-- `ITER` (R27) -/
  iter : Word
  /-- `S_VALUE[15:0]` (R28) -/
  sValue : BitVec 16
  /-- `TRIAL_COUNT` (R29) -/
  trialCount : Word
  /-- `DRAW_COUNT` (R30) -/
  drawCount : Word
  /-- `A` (R32) -/
  winA : List Word
  /-- `D` (R33) -/
  winD : List Word
  /-- `N` (R34) -/
  winN : List Word
  /-- `RESULT` (R35) -/
  result : List Word
  /-- `WITNESS` (R36) -/
  witness : List Word
  /-- the working registers (R39) -/
  work : Working
  /-- the sequencer state (R40) -/
  st : SeqState
  /-- `rnd_pending` (R41) -/
  rndPending : Bool
  /-- `rnd_bound` (R41) -/
  rndBound : Nat
deriving DecidableEq, Repr

/-- One line of a host program (R98): `rd` and `wr` are one transaction each, of `width` bytes at byte
offset `off` (R70; a width other than 4 is a bus error, R74); `poll` is a read repeated, one host step a
read, until `(value AND mask) = val`. -/
inductive HostOp
  | rd (width off : Nat)
  | wr (width off : Nat) (val : Word)
  | poll (off : Nat) (mask val : Word)
deriving DecidableEq, Repr

/-- Who moves next (R14). The random source has no move of its own: its answer is a parameter of the
engine's MR_DRAW step (R14, R142). `reset` is the hardware reset line (R230, entry 15). -/
inductive Turn
  | host
  | engine
  | reset
deriving DecidableEq, Repr

/-- The whole state of a run. -/
structure State where
  /-- the block's parameters (R6, R7), written by no step -/
  config : Config
  /-- the block (R20) -/
  block : Block
  /-- what is left of the host's program, in program order (entry 4) -/
  program : List HostOp
  /-- whose turn it is, the next one first; empty: the engine moves when it can, else the host
  (entries 4, 5) -/
  schedule : List Turn
  /-- the values the random source will deliver, in order; empty: it does not answer (R9, R141;
  entries 4, 14) -/
  answers : List Nat
  /-- the data the host's reads have returned, newest first (R70; entry 4) -/
  received : List Word
  /-- how many resets have drawn free values (entry 3) -/
  freeCount : Nat
deriving DecidableEq, Repr

/-- Why a step stops the run. -/
inductive Fault
  /-- BusError(OFF) (R74, R205): raised by a host transaction of another width than 32 bits, at a
  misaligned offset, or at an unmapped offset. Safe: the spec itself makes it a fault of the run. -/
  | busError (off : Nat)
  /-- A host transaction at an offset of 0x2000 or more (R71): no register of the block is there and the
  spec does not say what the platform answers. Safe: the run stops (entry 7). -/
  | outsideRegisterSpace (off : Nat)
deriving DecidableEq, Repr

/-- Why an instruction has no meaning. No arm of exec raises one. -/
inductive Refusal
  /-- An instruction the model has not reached. Safe: the run stops. -/
  | notModelled (mnemonic : String)
deriving DecidableEq, Repr

/-- The working registers of State.reset. DESIGN CHOICE (entry 2), unsafe: R230 leaves them
unspecified. -/
def Working.zero : Working :=
  { op := .powmod, n := 0, b := 0, e := 0, v := 0, r := 0, s := 0, y := 0, j := 0, wa := 0, w := 0,
    eff := 0, trials := 0, draws := 0 }

/-- The reset state of the block (R230): every host-visible register 0, no command running, no request
pending. What R230 leaves unspecified, the working registers and `rnd_bound`, is the argument. -/
def Block.reset (limbs : Nat) (work : Working) (rndBound : Nat) : Block :=
  { irqEn := false, done := false, ovr := false, errCode := .noError, iter := 0, sValue := 0,
    trialCount := 0, drawCount := 0, winA := List.replicate limbs 0, winD := List.replicate limbs 0,
    winN := List.replicate limbs 0, result := List.replicate limbs 0,
    witness := List.replicate limbs 0, work := work, st := .idle, rndPending := false,
    rndBound := rndBound }

/-- The machine right after reset (R230, R231), for any configuration; the environment is empty
(entry 4) and the unspecified registers have the values entry 2 names. -/
def State.resetWith (c : Config) : State :=
  { config := c, block := Block.reset c.limbs Working.zero 0, program := [], schedule := [],
    answers := [], received := [], freeCount := 0 }

/-- The machine right after reset, at the smallest configuration (entry 1). -/
def State.reset : State := State.resetWith Config.smallest

end Sys2Proof.Machine
end

