-- ==== Sys2Proof/Machine/Flags.lean ====
section
/-! DEFINITION. The status bits and the outputs: STATUS and its views (R25, R40, R42, R43), clearing it
(R187), the interrupt (R207) and the random port's outputs (R141). -/

namespace Sys2Proof.Machine

/-- The code `STATUS.STATE` reports (R40). -/
def SeqState.code : SeqState → BitVec 4
  | .idle => 0
  | .pmLoop => 1
  | .mrCheck => 2
  | .mrDecomp => 3
  | .mrNext => 4
  | .mrDraw => 5
  | .mrPow => 6
  | .mrChain => 7

/-- The code of `STATUS.ERR_CODE` (R200). -/
def ErrCode.code : ErrCode → BitVec 4
  | .noError => 0
  | .illegalCmd => 1
  | .modulusZero => 2
  | .iterZero => 3
  | .witnessRange => 4
  | .rndFault => 5
  | .aborted => 6

/-- `STATUS.BUSY` (R42). -/
def Block.busy (b : Block) : Bool := decide (b.st ≠ .idle)

/-- `STATUS.ERR` (R43). -/
def Block.err (b : Block) : Bool := decide (b.errCode ≠ .noError)

/-- The word a read of STATUS returns (R25, R180): STATE[19:16], ERR_CODE[11:8], OVR, ERR, DONE,
BUSY. -/
def Block.status (b : Block) : Word :=
  (0 : BitVec 12) ++ b.st.code ++ (0 : BitVec 4) ++ b.errCode.code ++ (0 : BitVec 4)
    ++ BitVec.ofBool b.ovr ++ BitVec.ofBool b.err ++ BitVec.ofBool b.done ++ BitVec.ofBool b.busy

/-- A write of `x` to STATUS (R187): bit 1 clears DONE and ERR_CODE, bit 3 clears OVR. -/
def Block.clearStatus (x : Word) (b : Block) : Block :=
  { b with
    done := if x.getLsbD 1 then false else b.done
    errCode := if x.getLsbD 1 then .noError else b.errCode
    ovr := if x.getLsbD 3 then false else b.ovr }

/-- The interrupt output `irq = CTRL.IRQ_EN AND STATUS.DONE` (R207). -/
def Block.irq (b : Block) : Bool := b.irqEn && b.done

/-- The random port's output `rnd_req` (R141); the output `rnd_bound` is the field of that name. -/
def Block.rndReq (b : Block) : Bool := b.rndPending

end Sys2Proof.Machine
end

