-- ==== Sys2Proof/Machine/Operands.lean ====
section
/-! DEFINITION. Operands: a window's W-bit value and its limbs (R31, R92), and the arithmetic of the
engine, exact on unsigned integers (R11, R111, R120). -/

namespace Sys2Proof.Machine

/-- `win(X)`: the value of a window's limbs, least significant first (R31, R92). -/
def win : List Word → Nat
  | [] => 0
  | x :: xs => x.toNat + 2 ^ 32 * win xs

/-- `zext_W(v)` as the `limbs` limbs of a window, least significant first (R31, R72). -/
def toLimbs : Nat → Nat → List Word
  | 0, _ => []
  | limbs + 1, v => BitVec.ofNat 32 v :: toLimbs limbs (v / 2 ^ 32)

/-- Reading word `i` of a window: limb `i` below `L`, else 0 (R37, R180). -/
def limbRead (limbs : Nat) (ws : List Word) (i : Nat) : Word :=
  if i < limbs then ws.getD i 0 else 0

/-- Writing word `i` of a window: ignored at `L` and above (R37, R181). -/
def limbWrite (limbs : Nat) (ws : List Word) (i : Nat) (x : Word) : List Word :=
  if i < limbs then ws.set i x else ws

/-- The modular multiplier (R111), exact. R111 defines it for `n >= 1`; no reachable state calls it with
`n = 0` (entry 13). -/
def mulmod (x y n : Nat) : Nat := x * y % n

/-- `sat32(draws + 1)` (R143). -/
def satIncr (d : BitVec 32) : BitVec 32 :=
  if d = 0xFFFFFFFF then d else d + 1

/-- One iteration of square-and-multiply (R113), shared by PM_LOOP and MR_POW (R145). -/
def Working.iterate (k : Working) : Working :=
  { k with
    v := if k.e % 2 = 1 then mulmod k.v k.b k.n else k.v
    b := mulmod k.b k.b k.n
    e := k.e / 2 }

end Sys2Proof.Machine
end

