-- ==== Sys2Proof/Machine/Ops.lean ====
section
/-! DEFINITION. The named operations the meanings share: submitting a command (R93, R95), ending one
with an error (R202, the block's whole error mechanism: it takes no traps, R208) or with a result (R116,
R148), the random request (R140), beginning a trial (R144), abort (R184) and reset (R185, R230). -/

namespace Sys2Proof.Machine

/-- `fail(code)` (R202). -/
def Block.fail (code : ErrCode) (k : Block) : Block :=
  { k with st := .idle, rndPending := false, done := true, errCode := code }

/-- The common part of `accept(opc)` (R95): DONE and ERR_CODE cleared, `op` and `n` taken. -/
def Block.accept (op : Opcode) (k : Block) : Block :=
  { k with
    done := false
    errCode := .noError
    work := { k.work with op := op, n := win k.winN } }

/-- A write to CMD (R93): ignored but for OVR while a command runs (R94); else the operand's error, if it
has one; else `started`, the state with the command accepted. -/
def Block.submit (k : Block) (error : Option ErrCode) (started : Block) : Block :=
  if k.busy then { k with ovr := true }
  else
    match error with
    | some code => k.fail code
    | none => started

/-- `finish_pm()` (R116): RESULT takes the accumulator, every limb in the same step. -/
def Block.finishPm (limbs : Nat) (k : Block) : Block :=
  { k with result := toLimbs limbs k.work.v, st := .idle, done := true }

/-- `finish_mr(verdict)` (R148): 1 is "probably prime". -/
def Block.finishMr (limbs : Nat) (verdict : Bool) (k : Block) : Block :=
  { k with
    result := toLimbs limbs verdict.toNat
    sValue := k.work.s
    trialCount := k.work.trials
    drawCount := k.work.draws
    witness := toLimbs limbs (if k.work.trials = 0#32 then 0 else k.work.w)
    st := .idle
    done := true }

/-- `rnd_request(bound)` (R140). -/
def Block.rndRequest (bound : Nat) (k : Block) : Block :=
  { k with rndPending := true, rndBound := bound, st := .mrDraw }

/-- `begin_trial(x)` (R144). -/
def Block.beginTrial (x : Nat) (k : Block) : Block :=
  { k with
    work := { k.work with w := x, trials := k.work.trials + 1, b := x, e := k.work.r, v := 1 }
    st := .mrPow }

/-- `abort()` (R184): ends a running command with ABORTED; nothing while IDLE. The working registers
keep what they hold (R184; entry 11). -/
def Block.abort (k : Block) : Block :=
  if k.busy then k.fail .aborted else k

/-- Working registers after reset number `k`: free values of each register's width (R230, S1;
entry 3). -/
def freeWorking (width k : Nat) : Working :=
  let wide (reg : Nat) : Nat := Config.freeValue k reg % 2 ^ width
  { op := match Config.freeValue k 0 % 3 with | 0 => .powmod | 1 => .mrTest | _ => .mrTrial
    n := wide 1, b := wide 2, e := wide 3, v := wide 4, r := wide 5
    s := BitVec.ofNat 16 (Config.freeValue k 6)
    y := wide 7
    j := BitVec.ofNat 16 (Config.freeValue k 8)
    wa := wide 9, w := wide 10
    eff := BitVec.ofNat 32 (Config.freeValue k 11)
    trials := BitVec.ofNat 32 (Config.freeValue k 12)
    draws := BitVec.ofNat 32 (Config.freeValue k 13) }

/-- The reset of the block (R230), by SRST (`soft_reset()`, R185) or by the reset line: the request is
withdrawn, a running command ends without DONE (R232), the host, the random source and its answers are
not touched (R233). -/
def State.resetBlock (s : State) : State :=
  { s with
    block := Block.reset s.config.limbs (freeWorking s.config.width s.freeCount)
      (Config.freeValue s.freeCount 14 % 2 ^ s.config.width)
    freeCount := s.freeCount + 1 }

end Sys2Proof.Machine
end

