-- ==== Sys2Proof/Machine/Control.lean ====
section
/-! DEFINITION. The CTRL actions ABORT (R184) and SRST (R185), and the CTRL write without an action bit
(R183, R186). -/

namespace Sys2Proof.Machine

/-- `IRQ_EN <- v[0]` (R183, R186). -/
def Block.setIrqEn (irqEn : Bool) (k : Block) : Block := { k with irqEn := irqEn }

/-- ABORT (R184): IRQ_EN is stored in the same step, before the command is ended (R183). -/
def execAbort (irqEn : Bool) (_ignored : BitVec 29) (s : State) : Host.Outcome State Fault Refusal :=
  .next { s with block := (s.block.setIrqEn irqEn).abort }

/-- SRST (R185): a reset of the block; bits 0 and 1 of the write are discarded (R183). -/
def execSrst (_irqEn _abortBit : Bool) (_ignored : BitVec 29) (s : State) :
    Host.Outcome State Fault Refusal :=
  .next s.resetBlock

end Sys2Proof.Machine
end

