-- ==== Sys2Proof/Machine/MillerRabin.lean ====
section
/-! DEFINITION. MR_TEST and MR_TRIAL: their submission (R133, R134, R150, R151) and the sequencer's
steps (R135 to R146). -/

namespace Sys2Proof.Machine

/-- `accept(0x02)` (R95, R133). -/
def Block.startMrTest (k : Block) : Block :=
  let a := k.accept .mrTest
  { a with
    work := { a.work with eff := k.iter - 1, trials := 0, draws := 0, s := 0 }
    st := .mrCheck }

/-- MR_TEST (R150): the write of 0x00000002 to CMD (R93). -/
def execMrTest (s : State) : Host.Outcome State Fault Refusal :=
  .next { s with
    block := s.block.submit (if s.block.iter = 0#32 then some .iterZero else none)
      s.block.startMrTest }

/-- `accept(0x03)` (R95, R134). -/
def Block.startMrTrial (k : Block) : Block :=
  let a := k.accept .mrTrial
  { a with
    work := { a.work with wa := win k.winA, eff := 1, trials := 0, draws := 0, s := 0 }
    st := .mrCheck }

/-- MR_TRIAL (R151): the write of 0x00000003 to CMD (R93); no operand is refused at submission. -/
def execMrTrial (s : State) : Host.Outcome State Fault Refusal :=
  .next { s with block := s.block.submit none s.block.startMrTrial }

/-- The engine step in MR_CHECK (R135). -/
def Block.mrCheckStep (limbs : Nat) (k : Block) : Block :=
  if k.work.n < 5 then k.finishMr limbs (k.work.n == 2 || k.work.n == 3)
  else if k.work.n % 2 = 0 then k.finishMr limbs false
  else { k with work := { k.work with r := k.work.n - 1 }, st := .mrDecomp }

/-- The engine step in MR_DECOMP (R136). -/
def Block.mrDecompStep (k : Block) : Block :=
  if k.work.r % 2 = 0 then { k with work := { k.work with r := k.work.r / 2, s := k.work.s + 1 } }
  else { k with st := .mrNext }

/-- The engine step in MR_NEXT (R137, R138). -/
def Block.mrNextStep (limbs : Nat) (k : Block) : Block :=
  if k.work.trials = k.work.eff then k.finishMr limbs true
  else if k.work.op = .mrTrial then
    if k.work.wa < 2 ∨ k.work.n - 2 < k.work.wa then k.fail .witnessRange
    else k.beginTrial k.work.wa
  else k.rndRequest (k.work.n - 1)

/-- The engine step in MR_DRAW when the random source delivers `u` (R142). -/
def Block.mrDrawStep (u : Nat) (k : Block) : Block :=
  let k1 : Block := { k with work := { k.work with draws := satIncr k.work.draws } }
  if k.rndBound ≤ u then k1.fail .rndFault
  else if u < 2 then k1.rndRequest k.rndBound
  else Block.beginTrial u { k1 with rndPending := false }

/-- The engine step in MR_POW (R145). -/
def Block.mrPowStep (k : Block) : Block :=
  if k.work.e ≠ 0 then { k with work := k.work.iterate }
  else if k.work.v = 1 ∨ k.work.v = k.work.n - 1 then
    { k with work := { k.work with y := k.work.v }, st := .mrNext }
  else { k with work := { k.work with y := k.work.v, j := 1 }, st := .mrChain }

/-- The engine step in MR_CHAIN (R146); `j <= s - 1` is an inequality of integers. The verdict of the
step that squares is read off the squared value. -/
def Block.mrChainStep (limbs : Nat) (k : Block) : Block :=
  if k.work.j.toNat + 1 ≤ k.work.s.toNat ∧ k.work.y ≠ k.work.n - 1 then
    let y' := mulmod k.work.y k.work.y k.work.n
    let k1 : Block := { k with work := { k.work with y := y', j := k.work.j + 1 } }
    if y' = 1 then k1.finishMr limbs false else k1
  else if k.work.y ≠ k.work.n - 1 then k.finishMr limbs false
  else { k with st := .mrNext }

end Sys2Proof.Machine
end

