-- ==== Sys2Proof/Machine/PowMod.lean ====
section
/-! DEFINITION. POWMOD: its submission (R93, R95, R112, R117, R118) and the engine's PM_LOOP step (R113,
R114). -/

namespace Sys2Proof.Machine

/-- `accept(0x01)` (R95, R112). -/
def Block.startPowmod (k : Block) : Block :=
  let a := k.accept .powmod
  { a with
    work := { a.work with b := win k.winA % win k.winN, e := win k.winD, v := 1 % win k.winN }
    st := .pmLoop }

/-- POWMOD (R117): the write of 0x00000001 to CMD (R93). -/
def execPowmod (s : State) : Host.Outcome State Fault Refusal :=
  .next { s with
    block := s.block.submit (if win s.block.winN = 0 then some .modulusZero else none)
      s.block.startPowmod }

/-- The engine step in PM_LOOP (R113, R114). -/
def Block.pmLoopStep (limbs : Nat) (k : Block) : Block :=
  if k.work.e ≠ 0 then { k with work := k.work.iterate } else k.finishPm limbs

end Sys2Proof.Machine
end

