-- ==== Sys2Proof/Machine/Dispatch.lean ====
section
/-! DEFINITION. The meaning of each instruction: the effect of the host write that is its encoding. -/

namespace Sys2Proof.Machine

def exec (i : Instr) (s : State) : Host.Outcome State Fault Refusal :=
  match i with
  | .powmod => Sys2Proof.Machine.execPowmod s
  | .mrTest => Sys2Proof.Machine.execMrTest s
  | .mrTrial => Sys2Proof.Machine.execMrTrial s
  | .abort irqEn ignored => Sys2Proof.Machine.execAbort irqEn ignored s
  | .srst irqEn abortBit ignored => Sys2Proof.Machine.execSrst irqEn abortBit ignored s

end Sys2Proof.Machine
end

