-- ==== Sys2Proof/Machine/RegisterMap.lean ====
section
/-! DEFINITION. The register map (R38): which register a byte offset names, and which accesses are legal
(R71, R73, R74). -/

namespace Sys2Proof.Machine

/-- The five operand windows (R31 to R36). -/
inductive Window
  | a
  | d
  | n
  | result
  | witness
deriving DecidableEq, Repr

/-- A register of the map (R38): a control register, or word `i` of a window. -/
inductive Reg
  | id
  | param
  | ctrl
  | status
  | cmd
  | iter
  | sValue
  | trialCount
  | drawCount
  | word (x : Window) (i : Nat)
deriving DecidableEq, Repr

/-- The base offset of a window (R32 to R36). -/
def Window.base : Window → Nat
  | .a => 0x400
  | .d => 0x800
  | .n => 0xC00
  | .result => 0x1000
  | .witness => 0x1400

/-- The offset of a register (R38). -/
def Reg.offset : Reg → Nat
  | .id => 0x000
  | .param => 0x004
  | .ctrl => 0x008
  | .status => 0x00C
  | .cmd => 0x010
  | .iter => 0x014
  | .sValue => 0x018
  | .trialCount => 0x01C
  | .drawCount => 0x020
  | .word x i => x.base + 4 * i

/-- The register at a word-aligned offset (R38); `none` in the unmapped ranges. -/
def regAt (off : Nat) : Option Reg :=
  if off < 0x024 then
    match off / 4 with
    | 0 => some .id
    | 1 => some .param
    | 2 => some .ctrl
    | 3 => some .status
    | 4 => some .cmd
    | 5 => some .iter
    | 6 => some .sValue
    | 7 => some .trialCount
    | _ => some .drawCount
  else if off < 0x400 then none
  else if off < 0x800 then some (.word .a ((off - 0x400) / 4))
  else if off < 0xC00 then some (.word .d ((off - 0x800) / 4))
  else if off < 0x1000 then some (.word .n ((off - 0xC00) / 4))
  else if off < 0x1400 then some (.word .result ((off - 0x1000) / 4))
  else if off < 0x1800 then some (.word .witness ((off - 0x1400) / 4))
  else none

/-- What a transaction of `width` bytes at offset `off` reaches: a register, or the fault it is answered
with (R71, R73, R74; entry 7). -/
def access (width off : Nat) : Except Fault Reg :=
  if 0x2000 ≤ off then .error (.outsideRegisterSpace off)
  else if width ≠ 4 ∨ off % 4 ≠ 0 then .error (.busError off)
  else
    match regAt off with
    | some reg => .ok reg
    | none => .error (.busError off)

/-- The effective address of a transaction (R182). -/
def effectiveAddress (c : Config) (off : Nat) : Nat := c.base + off

end Sys2Proof.Machine
end

