-- ==== Sys2Proof/Machine/HostPort.lean ====
section
/-! DEFINITION. The host register port: what a read returns (R180), what a write does (R93, R181, R183,
R187), one line of a host program (R98), and the byte view (R72). -/

namespace Sys2Proof.Machine

/-- `ID` (R22). -/
def idValue : Word := 0x504D5201

/-- The limbs of a window. -/
def Block.window (k : Block) : Window → List Word
  | .a => k.winA
  | .d => k.winD
  | .n => k.winN
  | .result => k.result
  | .witness => k.witness

/-- The word a read of a register returns (R180); a read changes nothing (R75). -/
def readReg (s : State) : Reg → Word
  | .id => idValue
  | .param => BitVec.ofNat 32 s.config.width
  | .ctrl => (BitVec.ofBool s.block.irqEn).setWidth 32
  | .status => s.block.status
  | .cmd => 0
  | .iter => s.block.iter
  | .sValue => s.block.sValue.setWidth 32
  | .trialCount => s.block.trialCount
  | .drawCount => s.block.drawCount
  | .word x i => limbRead s.config.limbs (s.block.window x) i

/-- A write of `x` to CMD (R93): the command it encodes, or ILLEGAL_CMD (R97; while a command runs, only
OVR, R94). -/
def writeCmd (x : Word) (s : State) : Host.Outcome State Fault Refusal :=
  match decodeCmd x with
  | .ok i => exec i s
  | .error _ => .next { s with block := s.block.submit (some .illegalCmd) s.block }

/-- A write of `x` to CTRL (R183): the action it encodes, or IRQ_EN alone. -/
def writeCtrl (x : Word) (s : State) : Host.Outcome State Fault Refusal :=
  match decodeCtrl x with
  | .ok i => exec i s
  | .error _ => .next { s with block := s.block.setIrqEn (x.getLsbD 0) }

/-- A write of word `i` of a window (R181): the operand windows store it below `L`; RESULT and WITNESS
are read-only. -/
def Block.writeWindow (limbs : Nat) (x : Window) (i : Nat) (val : Word) (k : Block) : Block :=
  match x with
  | .a => { k with winA := limbWrite limbs k.winA i val }
  | .d => { k with winD := limbWrite limbs k.winD i val }
  | .n => { k with winN := limbWrite limbs k.winN i val }
  | .result => k
  | .witness => k

/-- What a write of `x` to a register does (R181). -/
def writeReg (reg : Reg) (x : Word) (s : State) : Host.Outcome State Fault Refusal :=
  match reg with
  | .id => .next s
  | .param => .next s
  | .ctrl => writeCtrl x s
  | .status => .next { s with block := s.block.clearStatus x }
  | .cmd => writeCmd x s
  | .iter => .next { s with block := { s.block with iter := x } }
  | .sValue => .next s
  | .trialCount => .next s
  | .drawCount => .next s
  | .word y i => .next { s with block := s.block.writeWindow s.config.limbs y i x }

/-- One host step (R70) of a program line (R98), the line already taken off the program: a `poll` whose
read does not match yet stays at its head. -/
def hostStep (op : HostOp) (s : State) : Host.Outcome State Fault Refusal :=
  match op with
  | .rd width off =>
    match access width off with
    | .ok reg => .next { s with received := readReg s reg :: s.received }
    | .error f => .fault f
  | .wr width off val =>
    match access width off with
    | .ok reg => writeReg reg val s
    | .error f => .fault f
  | .poll off mask val =>
    match access 4 off with
    | .ok reg =>
      let t := { s with received := readReg s reg :: s.received }
      if readReg s reg &&& mask = val then .next t
      else .next { t with program := op :: s.program }
    | .error f => .fault f

/-- The byte a platform that numbers bytes sees at an address (R72): bits `[8k+7:8k]` of the register
whose word lies at `BASE + OFF`, `k` the address' place in it; `none` outside the mapped registers. -/
def byteAt (s : State) (address : Nat) : Option Byte :=
  if address < s.config.base then none
  else
    let off := address - s.config.base
    match access 4 (off - off % 4) with
    | .ok reg => some ((readReg s reg).extractLsb' (8 * (off % 4)) 8)
    | .error _ => none

end Sys2Proof.Machine
end

