-- ==== Sys2Proof/Machine/Agents.lean ====
section
/-! DEFINITION. The agents and their interleaving (R14, R81): one engine step, one host step, the reset
line, and whose turn it is. -/

namespace Sys2Proof.Machine

/-- The engine's step where it needs no random value (R113, R114, R135 to R137, R145, R146); `none` in
IDLE, where no command runs, and in MR_DRAW, which has no step without a value (R142). -/
def Block.engineStep (limbs : Nat) (k : Block) : Option Block :=
  match k.st with
  | .idle => none
  | .pmLoop => some (k.pmLoopStep limbs)
  | .mrCheck => some (k.mrCheckStep limbs)
  | .mrDecomp => some k.mrDecompStep
  | .mrNext => some (k.mrNextStep limbs)
  | .mrDraw => none
  | .mrPow => some k.mrPowStep
  | .mrChain => some (k.mrChainStep limbs)

/-- The state after the engine's step, if it has one: in MR_DRAW it consumes the next answer of the
random source (R141, R142), elsewhere none. -/
def State.engineStep (s : State) : Option State :=
  match s.block.st, s.answers with
  | .mrDraw, u :: us => some { s with block := s.block.mrDrawStep u, answers := us }
  | .mrDraw, [] => none
  | _, _ => (s.block.engineStep s.config.limbs).map fun k => { s with block := k }

/-- The engine's turn; where it has no step, the turn passes (entry 6). -/
def engineTurn (s : State) : State := s.engineStep.getD s

/-- The host's turn: the next line of its program; after its last, the turn passes (entry 6). -/
def hostTurn (s : State) : Host.Outcome State Fault Refusal :=
  match s.program with
  | [] => .next s
  | op :: ops => hostStep op { s with program := ops }

/-- One step of the run: the turn the schedule names (R14); with no turn named, the engine's if it has a
step, else the host's (entry 5). -/
def takeTurn (s : State) : Host.Outcome State Fault Refusal :=
  match s.schedule with
  | .host :: ts => hostTurn { s with schedule := ts }
  | .engine :: ts => .next (engineTurn { s with schedule := ts })
  | .reset :: ts => .next { s with schedule := ts }.resetBlock
  | [] =>
    match s.engineStep with
    | some t => .next t
    | none => hostTurn s

end Sys2Proof.Machine
end

