-- ==== Sys2Proof/Machine/Pseudo.lean ====
section
/-! DEFINITION. The pseudo-instructions of the host notation and their expansions (R99). -/

namespace Sys2Proof.Machine

/-- `wr OFF, VAL`: one 32-bit write (R98). -/
def wr (off : Nat) (val : Word) : HostOp := .wr 4 off val

/-- `rd OFF`: one 32-bit read (R98). -/
def rd (off : Nat) : HostOp := .rd 4 off

/-- The writes of a list of limbs from word `i` of a window, in increasing `i`. -/
def ldFrom (x : Window) (i : Nat) : List Word → List HostOp
  | [] => []
  | limb :: rest => wr (x.base + 4 * i) limb :: ldFrom x (i + 1) rest

/-- `ld X, value` (R99): every limb is written, upper zero limbs too. -/
def ld (limbs : Nat) (x : Window) (value : Nat) : List HostOp := ldFrom x 0 (toLimbs limbs value)

/-- `cmd POWMOD`, `cmd MR_TEST`, `cmd MR_TRIAL` (R99). -/
def cmd : Opcode → HostOp
  | .powmod => wr cmdOffset 0x00000001
  | .mrTest => wr cmdOffset 0x00000002
  | .mrTrial => wr cmdOffset 0x00000003

/-- `wait` (R99): until `DONE = 1`. -/
def waitDone : HostOp := .poll 0x00C 0x00000002 0x00000002

/-- `ack` (R99). -/
def ackDone : HostOp := wr 0x00C 0x00000002

/-- `rd_res` (R99): every limb of RESULT, in increasing order. -/
def rdRes (limbs : Nat) : List HostOp := (List.range limbs).map fun i => rd (0x1000 + 4 * i)

/-- The value `rd_res -> NAME` gives its name (R99): the sum of the `limbs` words read last by weight, the
earliest of them `NAME_0`. -/
def rdResValue (limbs : Nat) (received : List Word) : Nat := win (received.take limbs).reverse

end Sys2Proof.Machine
end

