-- ==== Sys2Proof/Machine/Step.lean ====
section
/-! DEFINITION. The step, and placing an instruction where the next step takes it from. The block fetches
nothing (R71, R85): an instruction reaches it as the host's next write, so the host's program is where it
is placed (entry 10). -/

namespace Sys2Proof.Machine

/-- One step of the run (R14). -/
def step (s : State) : Host.Outcome State Fault Refusal := takeTurn s

/-- `s` with the write that a row's bits of the opcode table stand for (entries 9, 10) as the host's next
transaction, and the host's turn next. -/
def State.withFetchWord (s : State) (nbits w : Nat) : State :=
  { s with
    program := wr (tableWrite nbits w).1 (tableWrite nbits w).2 :: s.program
    schedule := .host :: s.schedule }

end Sys2Proof.Machine
end

