-- ==== Sys2Proof/Safety.lean ====
section
/-! DEFINITION. The terms claims are stated in: the invariant of a reachable state, the relations between
a running command and the numbers it computes, the outcome of a Miller-Rabin trial as a fact about
numbers, and a legal host program. -/

namespace Sys2Proof.Machine

/-- STATUS is consistent (R188). -/
def Block.StatusConsistent (k : Block) : Prop :=
  (k.errCode ≠ .noError → k.done = true) ∧
    (k.busy = true → k.done = false ∧ k.errCode = .noError)

/-- What the reset table of R230 says of every state it gives a value. -/
def State.AtReset (s : State) : Prop :=
  readReg s .id = 0x504D5201 ∧ readReg s .param = BitVec.ofNat 32 (32 * s.config.limbs) ∧
    s.block.irqEn = false ∧ s.block.done = false ∧ s.block.ovr = false ∧
    s.block.errCode = .noError ∧ readReg s .status = 0 ∧ s.block.st = .idle ∧
    s.block.iter = 0 ∧ s.block.sValue = 0 ∧ s.block.trialCount = 0 ∧ s.block.drawCount = 0 ∧
    (∀ x : Window, s.block.window x = List.replicate s.config.limbs 0) ∧
    s.block.rndPending = false ∧ s.block.rndReq = false ∧ s.block.irq = false

/-- Every W-bit working register is below `2^W` (R10, R11). -/
structure Working.Fits (width : Nat) (k : Working) : Prop where
  n : k.n < 2 ^ width
  b : k.b < 2 ^ width
  e : k.e < 2 ^ width
  v : k.v < 2 ^ width
  r : k.r < 2 ^ width
  y : k.y < 2 ^ width
  wa : k.wa < 2 ^ width
  w : k.w < 2 ^ width

/-- The candidate is one the trials run on: odd and at least 5 (R135). -/
def Working.Candidate (k : Working) : Prop := 5 ≤ k.n ∧ k.n % 2 = 1

/-- The decomposition is done: `n - 1 = r * 2^s` with `r` odd and `s >= 1` (R136). -/
def Working.Decomposed (k : Working) : Prop :=
  k.Candidate ∧ k.n - 1 = k.r * 2 ^ k.s.toNat ∧ k.r % 2 = 1 ∧ 1 ≤ k.s.toNat

/-- `MR_TRIAL` runs one trial and consumes no random value (R134, R151). -/
def Working.TrialBudget (k : Working) : Prop :=
  k.op ≠ .powmod ∧ (k.op = .mrTrial → k.eff = 1 ∧ k.draws = 0) ∧ k.trials.toNat ≤ k.eff.toNat

/-- A trial has begun with a witness in its range (R138, R144). -/
def Working.TrialRunning (k : Working) : Prop :=
  k.Decomposed ∧ k.TrialBudget ∧ 1 ≤ k.trials.toNat ∧ 2 ≤ k.w ∧ k.w ≤ k.n - 2

/-- What holds of the working registers in each sequencer state. -/
def Block.SeqInv (k : Block) : Prop :=
  match k.st with
  | .idle => True
  | .pmLoop => k.work.op = .powmod ∧ 1 ≤ k.work.n ∧ k.work.v < k.work.n ∧ k.work.b < k.work.n
  | .mrCheck => k.work.TrialBudget ∧ k.work.trials = 0 ∧ k.work.draws = 0 ∧ k.work.s = 0
  | .mrDecomp =>
    k.work.TrialBudget ∧ k.work.trials = 0 ∧ k.work.draws = 0 ∧ k.work.Candidate ∧
      k.work.n - 1 = k.work.r * 2 ^ k.work.s.toNat
  | .mrNext => k.work.Decomposed ∧ k.work.TrialBudget
  | .mrDraw =>
    k.work.Decomposed ∧ k.work.TrialBudget ∧ k.work.op = .mrTest ∧
      k.work.trials.toNat < k.work.eff.toNat ∧ k.rndBound = k.work.n - 1
  | .mrPow =>
    k.work.TrialRunning ∧ k.work.v < k.work.n ∧ k.work.b < k.work.n ∧
      k.work.v * k.work.b ^ k.work.e % k.work.n = k.work.w ^ k.work.r % k.work.n
  | .mrChain =>
    k.work.TrialRunning ∧ 1 ≤ k.work.j.toNat ∧ k.work.j.toNat ≤ k.work.s.toNat ∧
      k.work.y = k.work.w ^ (k.work.r * 2 ^ (k.work.j.toNat - 1)) % k.work.n ∧
      (∀ i, i < k.work.j.toNat → k.work.w ^ (k.work.r * 2 ^ i) % k.work.n ≠ 1) ∧
      (∀ i, i + 1 < k.work.j.toNat →
        k.work.w ^ (k.work.r * 2 ^ i) % k.work.n ≠ k.work.n - 1)

/-- The invariant of the block: windows of `L` limbs (R31), W-bit registers below `2^W` (R11), STATUS
consistent (R188), a request pending exactly in MR_DRAW (R41), and what each sequencer state implies. -/
structure Block.Inv (c : Config) (k : Block) : Prop where
  lengths : ∀ x : Window, (k.window x).length = c.limbs
  fits : k.work.Fits c.width
  boundFits : k.rndBound < 2 ^ c.width
  status : k.StatusConsistent
  request : k.rndPending = true ↔ k.st = .mrDraw
  seq : k.SeqInv

/-- The invariant of the machine. -/
def State.Inv (s : State) : Prop := s.config.Legal ∧ s.block.Inv s.config

/-- A POWMOD of `a^d mod m` is running and on course (R115). -/
def Block.PowmodRunning (a d m : Nat) (k : Block) : Prop :=
  k.st = .pmLoop ∧ k.done = false ∧ k.errCode = .noError ∧ k.work.n = m ∧
    k.work.v < m ∧ k.work.b < m ∧ k.work.v * k.work.b ^ k.work.e % m = a ^ d % m

/-- `y_i = x^(r * 2^i) mod n`, the squaring chain's values (R147). -/
def chainValue (n r x i : Nat) : Nat := x ^ (r * 2 ^ i) % n

/-- The trial of `n` with witness `x` passes (R147): `y_0` is 1 or `n - 1`, or the least `i` in
`[1, s - 1]` with `y_i` in that set exists and has `y_i = n - 1`. -/
def TrialPasses (n r s x : Nat) : Prop :=
  chainValue n r x 0 = 1 ∨ chainValue n r x 0 = n - 1 ∨
    ∃ i, 1 ≤ i ∧ i + 1 ≤ s ∧ chainValue n r x i = n - 1 ∧
      ∀ h, 1 ≤ h → h < i → chainValue n r x h ≠ 1 ∧ chainValue n r x h ≠ n - 1

/-- The operand registers of the host (R32 to R34, R27) replaced, everything else kept. -/
def State.withOperands (s : State) (a d n : List Word) (iter : Word) : State :=
  { s with block := { s.block with winA := a, winD := d, winN := n, iter := iter } }

/-- A program line every transaction of which is legal (R73, R74). -/
def HostOp.Legal : HostOp → Prop
  | .rd width off => ∃ reg, access width off = .ok reg
  | .wr width off _ => ∃ reg, access width off = .ok reg
  | .poll off _ _ => ∃ reg, access 4 off = .ok reg

/-- Everything of a state that is the environment's, not the block's, is the same (R20). -/
def State.SameEnvironment (s t : State) : Prop :=
  t.config = s.config ∧ t.program = s.program ∧ t.schedule = s.schedule ∧
    t.answers = s.answers ∧ t.received = s.received ∧ t.freeCount = s.freeCount

/-- The registers only a command's successful end writes (R35, R36, R28 to R30) are the same. -/
def Block.SameResults (k l : Block) : Prop :=
  l.result = k.result ∧ l.witness = k.witness ∧ l.sValue = k.sValue ∧
    l.trialCount = k.trialCount ∧ l.drawCount = k.drawCount

/-- The host's operand registers are the same. -/
def Block.SameOperands (k l : Block) : Prop :=
  l.winA = k.winA ∧ l.winD = k.winD ∧ l.winN = k.winN ∧ l.iter = k.iter

end Sys2Proof.Machine
end

