-- ==== Sys2Proof/Certificates/Slice0/Obligations.lean ====
section
/-! DEFINITION. The statements for the provers. `hostStep (.wr 4 off x) s` is the host's write of `x` at
offset `off` in the state `s`, `hostStep (.rd 4 off) s` its read there (R70, R98). -/

open Sys2Proof Sys2Proof.Machine

/-! ## Encoding -/

/-- R91, R184, R185: words written out from the encodings decode to what they stand for, at the register
they are written to; bytes are little-endian (R72). -/
def Obligations.WrittenWordsDecode : Prop :=
  decodeWrite 0x010 0x00000001 = .ok .powmod ∧
    decodeWrite 0x010 0x00000002 = .ok .mrTest ∧
    decodeBytes 0x010 [0x03, 0x00, 0x00, 0x00] = .ok .mrTrial ∧
    decodeWrite 0x008 0x00000002 = .ok (.abort false 0) ∧
    decodeWrite 0x008 0x00000003 = .ok (.abort true 0) ∧
    decodeBytes 0x008 [0x0A, 0x00, 0x00, 0x80] = .ok (.abort false 0x10000001) ∧
    decodeWrite 0x008 0x00000004 = .ok (.srst false false 0) ∧
    decodeWrite 0x008 0xFFFFFFFF = .ok (.srst true true 0x1FFFFFFF) ∧
    decodeWrite 0x008 0x00000001 = .error .noControlAction ∧
    decodeWrite 0x010 0x00000101 = .error .illegalCommand

/-- R96: the legal command words are exactly 1, 2 and 3; every other word is rejected as illegal. -/
def Obligations.CommandWordsAreExactlyThree : Prop :=
  ∀ (c : Word) (i : Instr),
    (decodeCmd c = .ok i ↔
      (c = 0x00000001 ∧ i = .powmod) ∨ (c = 0x00000002 ∧ i = .mrTest) ∨
        (c = 0x00000003 ∧ i = .mrTrial)) ∧
    (c ≠ 0x00000001 → c ≠ 0x00000002 → c ≠ 0x00000003 → decodeCmd c = .error .illegalCommand)

/-- Decoding the encoding of a well-formed instruction gives it back, as a word and as bytes, with every
value of every field. -/
def Obligations.DecodeOfEncode : Prop :=
  ∀ i : Instr, i.wellFormed = true →
    decodeWrite (encode i).1 (encode i).2 = .ok i ∧
      decodeBytes (encodeOffset i) (encodeBytes i) = .ok i

/-- A write that decodes is the encoding of what it decodes to: no bit is lost and no other write means
the same instruction. -/
def Obligations.EncodeOfDecode : Prop :=
  ∀ (off : Nat) (x : Word) (i : Instr), decodeWrite off x = .ok i → encode i = (off, x)

/-! ## The step runs the decoded instruction -/

/-- When the host's next transaction is a write that decodes to `i`, the step is `exec i` in the state
with that transaction (and the turn) taken: on the host's named turn, and, with no turn named, when the
engine has no step (the model's choice, entry 5). -/
def Obligations.StepRunsDecodedInstruction : Prop :=
  ∀ (s : State) (off : Nat) (x : Word) (i : Instr) (ops : List HostOp),
    s.program = .wr 4 off x :: ops → decodeWrite off x = .ok i →
      (∀ ts, s.schedule = .host :: ts → step s = exec i { s with program := ops, schedule := ts }) ∧
      (s.schedule = [] → s.engineStep = none → step s = exec i { s with program := ops })

/-- Placing a table row's bits where the next step takes them runs the instruction they decode to, in the
state they were placed in. Which register the bits are written to and where they are placed is the
model's choice (entries 9, 10). -/
def Obligations.PlacedTableWordRuns : Prop :=
  ∀ (s : State) (nbits w : Nat) (i : Instr), decodeTableWord nbits w = some i →
    step (s.withFetchWord nbits w) = exec i s

/-! ## Reset -/

/-- R230: after reset, after SRST in any state and after the reset line in any state, every row of the
reset table but the unspecified registers holds. -/
def Obligations.ResetTableHolds : Prop :=
  (∀ c : Config, (State.resetWith c).AtReset) ∧
    (∀ (s : State) (x : Word), x.getLsbD 2 = true →
      ∃ t, hostStep (.wr 4 0x008 x) s = .next t ∧ t.AtReset ∧ t.config = s.config) ∧
    (∀ (s : State) (ts : List Turn), s.schedule = .reset :: ts →
      ∃ t, step s = .next t ∧ t.AtReset ∧ t.config = s.config)

/-- The invariant holds at State.reset and at the reset state of every legal configuration. -/
def Obligations.ResetMeetsInvariant : Prop :=
  State.reset.Inv ∧ ∀ c : Config, c.Legal → (State.resetWith c).Inv

/-! ## Submitting a command -/

/-- R93: every write to CMD is decided by the checks in their order. -/
def Obligations.CmdWriteDecidedInOrder : Prop :=
  ∀ (s : State) (c : Word),
    hostStep (.wr 4 0x010 c) s = .next { s with
     block :=
      if s.block.st ≠ .idle then { s.block with ovr := true }
      else if c.extractLsb' 8 24 ≠ 0 ∨
          ¬(c.extractLsb' 0 8 = 0x01 ∨ c.extractLsb' 0 8 = 0x02 ∨ c.extractLsb' 0 8 = 0x03) then
        s.block.fail .illegalCmd
      else if c.extractLsb' 0 8 = 0x01 ∧ win s.block.winN = 0 then s.block.fail .modulusZero
      else if c.extractLsb' 0 8 = 0x02 ∧ s.block.iter = 0#32 then s.block.fail .iterZero
      else if c.extractLsb' 0 8 = 0x01 then s.block.startPowmod
      else if c.extractLsb' 0 8 = 0x02 then s.block.startMrTest
      else s.block.startMrTrial }

/-- R112, R95: POWMOD accepted. Its operands are taken in this one step, DONE and ERR_CODE are cleared, and
nothing else of the state changes. -/
def Obligations.PowmodAccepted : Prop :=
  ∀ s : State, s.block.st = .idle → win s.block.winN ≠ 0 →
    exec .powmod s = .next { s with block := { s.block with
      done := false
      errCode := .noError
      st := .pmLoop
      work := { s.block.work with
        op := .powmod
        n := win s.block.winN
        b := win s.block.winA % win s.block.winN
        e := win s.block.winD
        v := 1 % win s.block.winN } } }

/-- R133, R95: MR_TEST accepted, with `ITER >= 1`. -/
def Obligations.MrTestAccepted : Prop :=
  ∀ s : State, s.block.st = .idle → 1 ≤ s.block.iter.toNat →
    ∃ eff : BitVec 32, eff.toNat = s.block.iter.toNat - 1 ∧
      exec .mrTest s = .next { s with block := { s.block with
        done := false
        errCode := .noError
        st := .mrCheck
        work := { s.block.work with
          op := .mrTest, n := win s.block.winN, eff := eff, trials := 0, draws := 0, s := 0 } } }

/-- R134, R95: MR_TRIAL accepted; ITER is not read. -/
def Obligations.MrTrialAccepted : Prop :=
  ∀ s : State, s.block.st = .idle →
    exec .mrTrial s = .next { s with block := { s.block with
      done := false
      errCode := .noError
      st := .mrCheck
      work := { s.block.work with
        op := .mrTrial, n := win s.block.winN, wa := win s.block.winA, eff := 1, trials := 0,
        draws := 0, s := 0 } } }

/-- R118, R202: POWMOD with modulus 0 starts nothing and changes DONE and ERR_CODE alone (a pending
request, which IDLE never has, would be withdrawn). -/
def Obligations.PowmodModulusZero : Prop :=
  ∀ s : State, s.block.st = .idle → win s.block.winN = 0 →
    exec .powmod s = .next { s with block := { s.block with
      done := true, errCode := .modulusZero, rndPending := false } }

/-- R150, R202: MR_TEST with ITER = 0 starts nothing, whatever the candidate. -/
def Obligations.MrTestIterZero : Prop :=
  ∀ s : State, s.block.st = .idle → s.block.iter = 0 →
    exec .mrTest s = .next { s with block := { s.block with
      done := true, errCode := .iterZero, rndPending := false } }

/-- R94: any word written to CMD while a command runs sets OVR and changes nothing else; OVR, once set, is
cleared only by a reset or by the step that takes the host's write of 1 to it. -/
def Obligations.BusyCommandOnlySetsStickyOvr : Prop :=
  (∀ (s : State) (c : Word), s.block.st ≠ .idle →
    hostStep (.wr 4 0x010 c) s = .next { s with block := { s.block with ovr := true } }) ∧
  (∀ s t : State, step s = .next t → s.block.ovr = true → t.block.ovr = false →
    t.freeCount = s.freeCount + 1 ∨
      ∃ (x : Word) (ops : List HostOp),
        s.program = .wr 4 0x00C x :: ops ∧ t.program = ops ∧ x.getLsbD 3 = true)

/-- Frame of the three commands' submission: what is not STATUS or a working register stays, read by read
and byte by byte. -/
def Obligations.CommandSubmissionFrame : Prop :=
  ∀ (i : Instr) (s t : State), i = .powmod ∨ i = .mrTest ∨ i = .mrTrial → exec i s = .next t →
    s.SameEnvironment t ∧ s.block.SameOperands t.block ∧ s.block.SameResults t.block ∧
      t.block.irqEn = s.block.irqEn ∧ t.block.rndBound = s.block.rndBound ∧
      t.block.work.r = s.block.work.r ∧ t.block.work.y = s.block.work.y ∧
      t.block.work.j = s.block.work.j ∧ t.block.work.w = s.block.work.w ∧
      (∀ reg : Reg, reg ≠ .status → readReg t reg = readReg s reg) ∧
      (∀ a : Nat, a < effectiveAddress s.config 0x00C ∨ effectiveAddress s.config 0x010 ≤ a →
        byteAt t a = byteAt s a)

/-! ## CTRL and STATUS -/

/-- R183: a CTRL write is a soft reset, or IRQ_EN and then, if asked, an abort. -/
def Obligations.CtrlWriteEffect : Prop :=
  ∀ (s : State) (x : Word),
    hostStep (.wr 4 0x008 x) s = .next
      (if x.getLsbD 2 = true then s.resetBlock
       else { s with
        block :=
          if x.getLsbD 1 = true then ({ s.block with irqEn := x.getLsbD 0 } : Block).abort
          else { s.block with irqEn := x.getLsbD 0 } })

/-- R184: ABORT ends a running command with ABORTED and withdraws its request, the working registers and
result registers left as they are; while IDLE it only stores IRQ_EN. Every byte outside CTRL and STATUS
reads as before. That the working registers keep their values is the model's reading (entry 11): S2 leaves
them any value. -/
def Obligations.AbortEffect : Prop :=
  ∀ (s : State) (irqEn : Bool) (ignored : BitVec 29),
    (s.block.st ≠ .idle →
      exec (.abort irqEn ignored) s = .next { s with block := { s.block with
        irqEn := irqEn, st := .idle, rndPending := false, done := true, errCode := .aborted } }) ∧
    (s.block.st = .idle →
      exec (.abort irqEn ignored) s = .next { s with block := { s.block with irqEn := irqEn } }) ∧
    (∀ (t : State) (a : Nat), exec (.abort irqEn ignored) s = .next t →
      a < effectiveAddress s.config 0x008 ∨ effectiveAddress s.config 0x010 ≤ a →
        byteAt t a = byteAt s a)

/-- R185: SRST, whatever its other bits, runs in every state: every host-visible register takes its reset
value, IDLE, the request withdrawn; the parameters, the host, its data and the random source's answers are
untouched. -/
def Obligations.SrstEffect : Prop :=
  ∀ (s : State) (irqEn abortBit : Bool) (ignored : BitVec 29),
    ∃ t, exec (.srst irqEn abortBit ignored) s = .next t ∧ t.AtReset ∧ t.config = s.config ∧
      t.program = s.program ∧ t.schedule = s.schedule ∧ t.answers = s.answers ∧
      t.received = s.received

/-- R187: a write to STATUS. -/
def Obligations.StatusWriteClears : Prop :=
  ∀ (s : State) (x : Word),
    hostStep (.wr 4 0x00C x) s = .next { s with block := { s.block with
      done := s.block.done && !x.getLsbD 1
      errCode := if x.getLsbD 1 = true then .noError else s.block.errCode
      ovr := s.block.ovr && !x.getLsbD 3 } }

/-- R42, R43: BUSY and ERR are views of the sequencer state and of the error code field; the reserved
fields read 0, and ERR_CODE, STATE, DONE and OVR stand in their places (R25), with the codes of the
tables of R200 and R40. -/
def Obligations.StatusWordViews : Prop :=
  ∀ s : State,
    ((readReg s .status).getLsbD 0 = true ↔ s.block.st ≠ .idle) ∧
      ((readReg s .status).getLsbD 2 = true ↔ (readReg s .status).extractLsb' 8 4 ≠ 0) ∧
      (readReg s .status).getLsbD 1 = s.block.done ∧ (readReg s .status).getLsbD 3 = s.block.ovr ∧
      (s.block.errCode, ((readReg s .status).extractLsb' 8 4).toNat) ∈
        [(ErrCode.noError, 0), (.illegalCmd, 1), (.modulusZero, 2), (.iterZero, 3),
          (.witnessRange, 4), (.rndFault, 5), (.aborted, 6)] ∧
      (s.block.st, ((readReg s .status).extractLsb' 16 4).toNat) ∈
        [(SeqState.idle, 0), (.pmLoop, 1), (.mrCheck, 2), (.mrDecomp, 3), (.mrNext, 4),
          (.mrDraw, 5), (.mrPow, 6), (.mrChain, 7)] ∧
      (readReg s .status).extractLsb' 4 4 = 0 ∧ (readReg s .status).extractLsb' 12 4 = 0 ∧
      (readReg s .status).extractLsb' 20 12 = 0

/-- R207: the interrupt output is IRQ_EN AND DONE; it rises only when a command (or its submission) ends,
leaving the block IDLE, or when IRQ_EN is set while DONE is. -/
def Obligations.InterruptRisesOnlyAtEnds : Prop :=
  (∀ s : State, s.block.irq = true ↔ s.block.irqEn = true ∧ s.block.done = true) ∧
    ∀ s t : State, step s = .next t → s.block.irq = false → t.block.irq = true →
      (s.block.done = false ∧ t.block.done = true ∧ t.block.st = .idle) ∨
        (s.block.done = true ∧ s.block.irqEn = false ∧ t.block.irqEn = true)

/-! ## The register port -/

/-- R180: the word a read returns at every mapped offset; the read changes nothing of the block. -/
def Obligations.ReadReturnsRegister : Prop :=
  ∀ s : State,
    (∀ (off : Nat) (v : Word),
      (off = 0x000 ∧ v = 0x504D5201) ∨
        (off = 0x004 ∧ v = BitVec.ofNat 32 (32 * s.config.limbs)) ∨
        (off = 0x008 ∧ v = if s.block.irqEn = true then 1 else 0) ∨
        (off = 0x00C ∧ v =
          BitVec.ofNat 32 ((if s.block.st = .idle then 0 else 1) + 2 * s.block.done.toNat +
            4 * (if s.block.errCode = .noError then 0 else 1) + 8 * s.block.ovr.toNat +
            2 ^ 8 * s.block.errCode.code.toNat + 2 ^ 16 * s.block.st.code.toNat)) ∨
        (off = 0x010 ∧ v = 0) ∨ (off = 0x014 ∧ v = s.block.iter) ∨
        (off = 0x018 ∧ v = BitVec.ofNat 32 s.block.sValue.toNat) ∨
        (off = 0x01C ∧ v = s.block.trialCount) ∨ (off = 0x020 ∧ v = s.block.drawCount) →
      hostStep (.rd 4 off) s = .next { s with received := v :: s.received }) ∧
    (∀ (x : Window) (base i : Nat),
      (x = .a ∧ base = 0x400) ∨ (x = .d ∧ base = 0x800) ∨ (x = .n ∧ base = 0xC00) ∨
        (x = .result ∧ base = 0x1000) ∨ (x = .witness ∧ base = 0x1400) → i < 256 →
      hostStep (.rd 4 (base + 4 * i)) s = .next { s with received :=
        (if i < s.config.limbs then (s.block.window x).getD i 0 else 0) :: s.received })

/-- R75: a read changes no state of the block, and reading again returns the same value; a read of CMD
returns 0. A `poll` (R98) changes no more than the read it is, and its place in the host's program. -/
def Obligations.ReadsHaveNoSideEffects : Prop :=
  (∀ (s t : State) (width off : Nat), hostStep (.rd width off) s = .next t →
    ∃ v, t = { s with received := v :: s.received } ∧
      hostStep (.rd width off) t = .next { t with received := v :: t.received }) ∧
  (∀ s : State, hostStep (.rd 4 0x010) s = .next { s with received := 0 :: s.received }) ∧
  (∀ (s t : State) (off : Nat) (mask val : Word), hostStep (.poll off mask val) s = .next t →
    ∃ v, t = { s with received := v :: s.received, program := t.program } ∧
      hostStep (.rd 4 off) s = .next { s with received := v :: s.received })

/-- R98: one host step of a `poll` reads the register once, and leaves the host's program when the masked
value matches; until then the line stays at its head. `s` is the state with the line taken off the
program. -/
def Obligations.PollReadsUntilMatch : Prop :=
  ∀ (s : State) (off : Nat) (mask val v : Word),
    hostStep (.rd 4 off) s = .next { s with received := v :: s.received } →
    (v &&& mask = val →
      hostStep (.poll off mask val) s = .next { s with received := v :: s.received }) ∧
    (v &&& mask ≠ val →
      hostStep (.poll off mask val) s =
        .next { s with received := v :: s.received, program := .poll off mask val :: s.program })

/-- R76, R181: a write to a read-only register, to RESULT or to WITNESS changes nothing; ITER and a limb
below `L` of an operand window store the value and change nothing else; a word at `L` or above ignores
it. -/
def Obligations.WriteStoresOperandsOnly : Prop :=
  ∀ (s : State) (x : Word),
    (∀ off : Nat, off = 0x000 ∨ off = 0x004 ∨ off = 0x018 ∨ off = 0x01C ∨ off = 0x020 →
      hostStep (.wr 4 off x) s = .next s) ∧
    hostStep (.wr 4 0x014 x) s = .next { s with block := { s.block with iter := x } } ∧
    (∀ i : Nat, i < 256 →
      hostStep (.wr 4 (0x1000 + 4 * i) x) s = .next s ∧
      hostStep (.wr 4 (0x1400 + 4 * i) x) s = .next s ∧
      (i < s.config.limbs →
        hostStep (.wr 4 (0x400 + 4 * i) x) s =
          .next { s with block := { s.block with winA := s.block.winA.set i x } } ∧
        hostStep (.wr 4 (0x800 + 4 * i) x) s =
          .next { s with block := { s.block with winD := s.block.winD.set i x } } ∧
        hostStep (.wr 4 (0xC00 + 4 * i) x) s =
          .next { s with block := { s.block with winN := s.block.winN.set i x } }) ∧
      (s.config.limbs ≤ i →
        hostStep (.wr 4 (0x400 + 4 * i) x) s = .next s ∧
        hostStep (.wr 4 (0x800 + 4 * i) x) s = .next s ∧
        hostStep (.wr 4 (0xC00 + 4 * i) x) s = .next s))

/-- R74: inside the register space, an access faults with BusError(OFF) exactly when its width is not 32
bits, its offset is no multiple of 4, or its offset is in an unmapped range; every other access, at or
above limb `L` too, is a next state. A `poll` faults as its read does. -/
def Obligations.BusErrorExactlyOnIllegalAccess : Prop :=
  ∀ (s : State) (width off : Nat) (x mask val : Word), off < 0x2000 →
    ((width ≠ 4 ∨ off % 4 ≠ 0 ∨ (0x024 ≤ off ∧ off ≤ 0x3FF) ∨ (0x1800 ≤ off ∧ off ≤ 0x1FFF)) →
      hostStep (.rd width off) s = .fault (.busError off) ∧
        hostStep (.wr width off x) s = .fault (.busError off) ∧
        (width = 4 → hostStep (.poll off mask val) s = .fault (.busError off))) ∧
    (¬(width ≠ 4 ∨ off % 4 ≠ 0 ∨ (0x024 ≤ off ∧ off ≤ 0x3FF) ∨ (0x1800 ≤ off ∧ off ≤ 0x1FFF)) →
      (∃ t, hostStep (.rd width off) s = .next t) ∧ (∃ t, hostStep (.wr width off x) s = .next t) ∧
        ∃ t, hostStep (.poll off mask val) s = .next t)

/-- The model's choice (entry 7): an offset outside the register space stops the run. -/
def Obligations.AccessOutsideRegisterSpaceStops : Prop :=
  ∀ (s : State) (width off : Nat) (x mask val : Word), 0x2000 ≤ off →
    hostStep (.rd width off) s = .fault (.outsideRegisterSpace off) ∧
      hostStep (.wr width off x) s = .fault (.outsideRegisterSpace off) ∧
      hostStep (.poll off mask val) s = .fault (.outsideRegisterSpace off)

/-- R72: limb `i` of an operand is bits `[32i+31:32i]` of its value, and byte `k` of the word at offset
`OFF`, at address `BASE + OFF + k`, holds bits `[8k+7:8k]` of the word. -/
def Obligations.LimbAndByteOrder : Prop :=
  (∀ (ws : List Word) (i : Nat), i < ws.length →
    (ws.getD i 0).toNat = win ws / 2 ^ (32 * i) % 2 ^ 32) ∧
  (∀ (s : State) (reg : Reg) (off k : Nat), access 4 off = .ok reg → k < 4 →
    byteAt s (effectiveAddress s.config off + k) = some ((readReg s reg).extractLsb' (8 * k) 8))

/-- R31: a window's value is the sum of its limbs by weight, and it is below `2^W`. -/
def Obligations.WindowValueIsLimbSum : Prop :=
  ∀ ws : List Word,
    win ws = ((List.range ws.length).map fun i => (ws.getD i 0).toNat * 2 ^ (32 * i)).sum ∧
      win ws < 2 ^ (32 * ws.length)

/-- R99: the host's `ld X, value`, `L` host steps of the expansion, leaves the window with that value and
changes nothing else. -/
def Obligations.LdLoadsTheWindow : Prop :=
  ∀ (s : State) (x : Window) (v : Nat) (ops : List HostOp) (ts : List Turn),
    s.config.Legal → x = .a ∨ x = .d ∨ x = .n → (s.block.window x).length = s.config.limbs →
    v < 2 ^ s.config.width → s.program = ld s.config.limbs x v ++ ops →
    s.schedule = List.replicate s.config.limbs .host ++ ts →
    ∃ k : Block,
      core.run s.config.limbs s = .next { s with program := ops, schedule := ts, block := k } ∧
        win (k.window x) = v ∧ (∀ y, y ≠ x → k.window y = s.block.window y) ∧
        k = { s.block with winA := k.winA, winD := k.winD, winN := k.winN }

/-- R99: the expansions of the pseudo-instructions, transaction by transaction, and the value `rd_res`
gives its name. -/
def Obligations.PseudoInstructionsExpand : Prop :=
  (∀ (limbs : Nat) (x : Window) (base v : Nat),
    (x = .a ∧ base = 0x400) ∨ (x = .d ∧ base = 0x800) ∨ (x = .n ∧ base = 0xC00) →
    ld limbs x v = (List.range limbs).map fun i =>
      .wr 4 (base + 4 * i) (BitVec.ofNat 32 (v / 2 ^ (32 * i)))) ∧
  cmd .powmod = .wr 4 0x010 0x00000001 ∧ cmd .mrTest = .wr 4 0x010 0x00000002 ∧
  cmd .mrTrial = .wr 4 0x010 0x00000003 ∧
  waitDone = .poll 0x00C 0x00000002 0x00000002 ∧ ackDone = .wr 4 0x00C 0x00000002 ∧
  (∀ limbs : Nat, rdRes limbs = (List.range limbs).map fun i => .rd 4 (0x1000 + 4 * i)) ∧
  (∀ names earlier : List Word,
    rdResValue names.length (names.reverse ++ earlier) =
      ((List.range names.length).map fun i => (names.getD i 0).toNat * 2 ^ (32 * i)).sum)

/-- R99: what the one-line pseudo-instructions do. `cmd` executes its command; `wait` lets the host go on
exactly when DONE is set, and changes nothing of the block; `ack` clears DONE and ERR_CODE and changes
nothing else. `s` is the state with the line taken off the program. -/
def Obligations.CmdWaitAckAct : Prop :=
  ∀ s : State,
    hostStep (cmd .powmod) s = exec .powmod s ∧ hostStep (cmd .mrTest) s = exec .mrTest s ∧
    hostStep (cmd .mrTrial) s = exec .mrTrial s ∧
    hostStep waitDone s = .next { s with
      received := readReg s .status :: s.received
      program := if s.block.done = true then s.program else waitDone :: s.program } ∧
    hostStep ackDone s = .next { s with block := { s.block with
      done := false, errCode := .noError } }

/-- R99: the host's `rd_res`, `L` host steps of the expansion, reads every limb of RESULT in increasing
order, gives its name the value of RESULT, and changes nothing else. -/
def Obligations.RdResReadsResult : Prop :=
  ∀ (s : State) (ops : List HostOp) (ts : List Turn),
    s.config.Legal → s.block.result.length = s.config.limbs →
    s.program = rdRes s.config.limbs ++ ops →
    s.schedule = List.replicate s.config.limbs .host ++ ts →
    ∃ received : List Word,
      core.run s.config.limbs s = .next { s with
        program := ops, schedule := ts, received := received } ∧
      received = s.block.result.reverse ++ s.received ∧
      rdResValue s.config.limbs received = win s.block.result

/-! ## The engine -/

/-- R113: one iteration of square-and-multiply, and nothing else of the state. -/
def Obligations.PowmodIteration : Prop :=
  ∀ s : State, s.block.st = .pmLoop → s.block.work.e ≠ 0 →
    s.engineStep = some { s with block := { s.block with work := { s.block.work with
      v := if s.block.work.e % 2 = 1 then s.block.work.v * s.block.work.b % s.block.work.n
        else s.block.work.v
      b := s.block.work.b * s.block.work.b % s.block.work.n
      e := s.block.work.e / 2 } } }

/-- R114, R116: with the exponent used up, RESULT takes the accumulator, every limb in the same step, and
the command ends; the Miller-Rabin readbacks are unchanged. -/
def Obligations.PowmodEnd : Prop :=
  ∀ s : State, s.block.st = .pmLoop → s.block.work.e = 0 →
    s.engineStep = some { s with block := { s.block with
      result := toLimbs s.config.limbs s.block.work.v, st := .idle, done := true } }

/-- R135: the special cases of MR_CHECK, and the odd candidate's way on to the decomposition. -/
def Obligations.MrCheckStep : Prop :=
  ∀ s : State, s.block.st = .mrCheck →
    (s.block.work.n = 2 ∨ s.block.work.n = 3 →
      s.engineStep = some { s with block := s.block.finishMr s.config.limbs true }) ∧
    (s.block.work.n = 0 ∨ s.block.work.n = 1 ∨ s.block.work.n = 4 →
      s.engineStep = some { s with block := s.block.finishMr s.config.limbs false }) ∧
    (5 ≤ s.block.work.n → s.block.work.n % 2 = 0 →
      s.engineStep = some { s with block := s.block.finishMr s.config.limbs false }) ∧
    (5 ≤ s.block.work.n → s.block.work.n % 2 = 1 →
      s.engineStep = some { s with block := { s.block with
        st := .mrDecomp
        work := { s.block.work with r := s.block.work.n - 1 } } })

/-- R136: one step of the decomposition. -/
def Obligations.MrDecompStep : Prop :=
  ∀ s : State, s.block.st = .mrDecomp →
    (s.block.work.r % 2 = 0 →
      s.engineStep = some { s with block := { s.block with
        work := { s.block.work with r := s.block.work.r / 2, s := s.block.work.s + 1 } } }) ∧
    (s.block.work.r % 2 = 1 →
      s.engineStep = some { s with block := { s.block with st := .mrNext } })

/-- R145: one iteration of the witness exponentiation, or its end: the trial passes, or the squaring chain
begins. -/
def Obligations.MrPowStep : Prop :=
  ∀ s : State, s.block.st = .mrPow →
    (s.block.work.e ≠ 0 →
      s.engineStep = some { s with block := { s.block with work := { s.block.work with
        v := if s.block.work.e % 2 = 1 then s.block.work.v * s.block.work.b % s.block.work.n
          else s.block.work.v
        b := s.block.work.b * s.block.work.b % s.block.work.n
        e := s.block.work.e / 2 } } }) ∧
    (s.block.work.e = 0 → s.block.work.v = 1 ∨ s.block.work.v = s.block.work.n - 1 →
      s.engineStep = some { s with block := { s.block with
        st := .mrNext
        work := { s.block.work with y := s.block.work.v } } }) ∧
    (s.block.work.e = 0 → s.block.work.v ≠ 1 → s.block.work.v ≠ s.block.work.n - 1 →
      s.engineStep = some { s with block := { s.block with
        st := .mrChain
        work := { s.block.work with y := s.block.work.v, j := 1 } } })

/-- R146: one squaring of the chain, tested for 1 after the squaring; or the chain's end, a composite or a
trial passed. The readbacks of an ending step are those before it (R148). -/
def Obligations.MrChainStep : Prop :=
  ∀ (s : State) (y' : Nat), s.block.st = .mrChain →
    y' = s.block.work.y * s.block.work.y % s.block.work.n →
    (s.block.work.j.toNat + 1 ≤ s.block.work.s.toNat → s.block.work.y ≠ s.block.work.n - 1 →
      (y' ≠ 1 →
        s.engineStep = some { s with block := { s.block with
          work := { s.block.work with y := y', j := s.block.work.j + 1 } } }) ∧
      (y' = 1 →
        s.engineStep = some { s with block := { s.block.finishMr s.config.limbs false with
          work := { s.block.work with y := y', j := s.block.work.j + 1 } } })) ∧
    (s.block.work.s.toNat < s.block.work.j.toNat + 1 → s.block.work.y ≠ s.block.work.n - 1 →
      s.engineStep = some { s with block := s.block.finishMr s.config.limbs false }) ∧
    (s.block.work.y = s.block.work.n - 1 →
      s.engineStep = some { s with block := { s.block with st := .mrNext } })

/-- R136: the decomposition halves until `n - 1 = r * 2^s` with `r` odd, in `s + 1` steps, and nothing but
`r`, `s` and the sequencer state changes. -/
def Obligations.DecompositionEnds : Prop :=
  ∀ (s : State) (r e : Nat), s.config.Legal → s.block.st = .mrDecomp →
    s.block.work.n < 2 ^ s.config.width → 5 ≤ s.block.work.n → s.block.work.n % 2 = 1 →
    s.block.work.r = s.block.work.n - 1 → s.block.work.s = 0 →
    s.block.work.n - 1 = r * 2 ^ e → r % 2 = 1 →
    1 ≤ e ∧ engineTurn^[e + 1] s = { s with block := { s.block with
      work := { s.block.work with r := r, s := BitVec.ofNat 16 e }, st := .mrNext } } ∧
      (BitVec.ofNat 16 e).toNat = e

/-- R137, R138, R140, R144: the trial loop's dispatch. That the working registers keep their values when
the witness is out of range is the model's reading (entry 11): S2 leaves them any value. -/
def Obligations.TrialDispatch : Prop :=
  ∀ s : State, s.block.st = .mrNext →
    (s.block.work.trials = s.block.work.eff →
      s.engineStep = some { s with block := s.block.finishMr s.config.limbs true }) ∧
    (s.block.work.trials ≠ s.block.work.eff → s.block.work.op = .mrTrial →
      (s.block.work.wa < 2 ∨ s.block.work.n - 2 < s.block.work.wa →
        s.engineStep = some { s with block := { s.block with
          st := .idle, rndPending := false, done := true, errCode := .witnessRange } }) ∧
      (2 ≤ s.block.work.wa → s.block.work.wa ≤ s.block.work.n - 2 →
        s.engineStep = some { s with block := { s.block with
          st := .mrPow
          work := { s.block.work with
            w := s.block.work.wa, trials := s.block.work.trials + 1, b := s.block.work.wa,
            e := s.block.work.r, v := 1 } } })) ∧
    (s.block.work.trials ≠ s.block.work.eff → s.block.work.op = .mrTest →
      s.engineStep = some { s with block := { s.block with
        st := .mrDraw, rndPending := true, rndBound := s.block.work.n - 1 } })

/-- R142, R143: a delivered value is counted (saturating) and is out of range, re-drawn or the witness of a
trial; exactly one answer is consumed. That the other working registers keep their values after RND_FAULT
is the model's reading (entry 11): S2 leaves them any value. -/
def Obligations.RandomValueConsumed : Prop :=
  ∀ (s : State) (u : Nat) (us : List Nat), s.block.st = .mrDraw → s.answers = u :: us →
    ∃ d : BitVec 32, d.toNat = min (s.block.work.draws.toNat + 1) 0xFFFFFFFF ∧
      (s.block.rndBound ≤ u →
        s.engineStep = some { s with answers := us, block := { s.block with
          st := .idle, rndPending := false, done := true, errCode := .rndFault
          work := { s.block.work with draws := d } } }) ∧
      (u < s.block.rndBound → u < 2 →
        s.engineStep = some { s with answers := us, block := { s.block with
          rndPending := true, work := { s.block.work with draws := d } } }) ∧
      (u < s.block.rndBound → 2 ≤ u →
        s.engineStep = some { s with answers := us, block := { s.block with
          st := .mrPow
          rndPending := false
          work := { s.block.work with
            draws := d, w := u, trials := s.block.work.trials + 1, b := u, e := s.block.work.r,
            v := 1 } } })

/-- R148: what the end of a Miller-Rabin command writes, and that it writes nothing else; and every engine
step that ends such a command successfully reads `s`, `trials`, `draws` and `w` as they stood before it,
and does not write them. -/
def Obligations.FinishMrWritesReadbacks : Prop :=
  (∀ (limbs : Nat) (verdict : Bool) (k : Block),
    k.finishMr limbs verdict = { k with
      result := toLimbs limbs (if verdict = true then 1 else 0)
      sValue := k.work.s
      trialCount := k.work.trials
      drawCount := k.work.draws
      witness := if 0 < k.work.trials.toNat then toLimbs limbs k.work.w
        else List.replicate limbs 0
      st := .idle
      done := true } ∧
    win (k.finishMr limbs verdict).result = (if verdict = true then 1 else 0) % 2 ^ (32 * limbs)) ∧
  (∀ s t : State, s.engineStep = some t → s.block.st ≠ .pmLoop → t.block.st = .idle →
    t.block.errCode = .noError →
    ∃ verdict : Bool,
      t = { s with block := { s.block.finishMr s.config.limbs verdict with work := t.block.work } } ∧
      t.block.work.s = s.block.work.s ∧ t.block.work.trials = s.block.work.trials ∧
      t.block.work.draws = s.block.work.draws ∧ t.block.work.w = s.block.work.w)

/-- R149, R142: the engine has a step exactly when a command runs and, in MR_DRAW, the random source
delivers a value; a state where it has none is unchanged by its turn (a passing turn is the model's
choice, entry 6). -/
def Obligations.EngineStepsUnlessIdleOrWaiting : Prop :=
  ∀ s : State,
    ((∃ t, s.engineStep = some t) ↔
      s.block.st ≠ .idle ∧ (s.block.st = .mrDraw → s.answers ≠ [])) ∧
    (s.engineStep = none → engineTurn s = s)

/-! ## Every step, every interleaving -/

/-- Every step keeps the invariant, whoever moves: windows keep their length, W-bit registers stay below
`2^W` (R11), STATUS stays consistent (R188), a request is pending exactly in MR_DRAW (R41), and each
sequencer state's relation between the working registers holds. -/
def Obligations.EveryStepKeepsInvariant : Prop :=
  ∀ s t : State, s.Inv → step s = .next t → t.Inv

/-- R188: `ERR_CODE != 0` implies `DONE = 1`, and `BUSY = 1` implies `DONE = 0` and `ERR_CODE = 0`: at
reset, and kept by every step. -/
def Obligations.StatusStaysConsistent : Prop :=
  (∀ c : Config, (State.resetWith c).block.StatusConsistent) ∧
    ∀ s t : State, s.block.StatusConsistent → step s = .next t → t.block.StatusConsistent

/-- R82, R204: RESULT, WITNESS, S_VALUE, TRIAL_COUNT and DRAW_COUNT change only in a reset or in the step
that ends a running command successfully, with DONE set in that same step. -/
def Obligations.ResultsChangeOnlyAtSuccess : Prop :=
  ∀ s t : State, s.block.StatusConsistent → step s = .next t → ¬s.block.SameResults t.block →
    t.freeCount = s.freeCount + 1 ∨
      (s.block.st ≠ .idle ∧ t.block.st = .idle ∧ t.block.done = true ∧ t.block.errCode = .noError)

/-- R85: the running command does not see the operand registers: the engine's step is the same whatever
the host has written to A, D, N and ITER since, and it leaves what is written there. -/
def Obligations.EngineIgnoresOperandRegisters : Prop :=
  ∀ (s : State) (a d n : List Word) (iter : Word),
    (s.withOperands a d n iter).engineStep =
      s.engineStep.map fun t => t.withOperands a d n iter

/-- The parameters never change, and the operand registers change only in a reset or in the step that takes
a host write to one of them, which stores its word there and leaves the others (R20, R21, R181). -/
def Obligations.OnlyHostOrResetChangesOperands : Prop :=
  ∀ s t : State, step s = .next t →
    t.config = s.config ∧
      (¬s.block.SameOperands t.block →
        t.freeCount = s.freeCount + 1 ∨
          ∃ (off : Nat) (x : Word) (ops : List HostOp),
            s.program = .wr 4 off x :: ops ∧ t.program = ops ∧
            ((off = 0x014 ∧ t.block = { s.block with iter := x }) ∨
              ∃ i : Nat, i < s.config.limbs ∧ i < 256 ∧
                ((off = 0x400 + 4 * i ∧ t.block = { s.block with winA := s.block.winA.set i x }) ∨
                  (off = 0x800 + 4 * i ∧ t.block = { s.block with winD := s.block.winD.set i x }) ∨
                  (off = 0xC00 + 4 * i ∧ t.block = { s.block with winN := s.block.winN.set i x }))))

/-- R141, R232: a random answer is consumed only by the engine's step in MR_DRAW, one at a time and in
order; every other step of any agent, an abort and a reset too, leaves the answers as they are. -/
def Obligations.AnswersConsumedOnlyInDraw : Prop :=
  ∀ s t : State, step s = .next t →
    (s.block.st ≠ .mrDraw → t.answers = s.answers) ∧
    (t.freeCount ≠ s.freeCount → t.answers = s.answers) ∧
    (t.answers ≠ s.answers →
      ∃ u : Nat, s.answers = u :: t.answers ∧ t.block = s.block.mrDrawStep u ∧
        t.program = s.program ∧ t.received = s.received)

/-- A legal host program never stops the run, and what is left of it stays legal. -/
def Obligations.LegalProgramNeverStops : Prop :=
  ∀ s : State, (∀ op ∈ s.program, op.Legal) →
    ∃ t, step s = .next t ∧ ∀ op ∈ t.program, op.Legal

/-! ## Results -/

/-- R119, R122: POWMOD of `a^d mod n`, once accepted and left to the engine, ends after `bitlen(d) + 1`
steps with RESULT = `a^d mod n` (`0^0 = 1`), DONE set, and nothing changed but RESULT, STATUS and the
working registers. With no turn named the engine moves first, the model's choice (entry 5). -/
def Obligations.PowmodComputesPower : Prop :=
  ∀ s : State, s.block.st = .idle → win s.block.winN ≠ 0 → s.schedule = [] →
    s.block.winN.length = s.config.limbs →
    ∃ (t : State) (work : Working), exec .powmod s = .next t ∧
      core.run (Nat.size (win s.block.winD) + 1) t = .next { s with block := { s.block with
        done := true
        errCode := .noError
        work := work
        result := toLimbs s.config.limbs
          (win s.block.winA ^ win s.block.winD % win s.block.winN) } } ∧
      win (toLimbs s.config.limbs (win s.block.winA ^ win s.block.winD % win s.block.winN)) =
        win s.block.winA ^ win s.block.winD % win s.block.winN

/-- R115, R119, R203: whoever moves, a running POWMOD of `a^d mod m` stays on course, or ends with exactly
`a^d mod m` in RESULT, or is aborted with RESULT unchanged, or is discarded by a reset. -/
def Obligations.PowmodRightUnderEveryInterleaving : Prop :=
  ∀ (s t : State) (a d m : Nat), s.block.PowmodRunning a d m → step s = .next t →
    t.block.PowmodRunning a d m ∨
      (t.block.st = .idle ∧ t.block.done = true ∧ t.block.errCode = .noError ∧
        t.block.result = toLimbs s.config.limbs (a ^ d % m)) ∨
      (t.block.st = .idle ∧ t.block.done = true ∧ t.block.errCode = .aborted ∧
        t.block.result = s.block.result) ∨
      (t.freeCount = s.freeCount + 1 ∧ t.block.st = .idle ∧ t.block.done = false)

/-- R135, R153: a candidate below 5 or even is decided in one step with no trial: 1 for 2 and 3, else 0;
the readbacks are 0. Here for MR_TRIAL, whose witness is not examined, and for MR_TEST with any
`ITER >= 1`. With no turn named the engine moves first, the model's choice (entry 5). -/
def Obligations.SpecialCandidatesDecidedAtOnce : Prop :=
  ∀ (s : State) (i : Instr), i = .mrTrial ∨ (i = .mrTest ∧ 1 ≤ s.block.iter.toNat) →
    s.block.st = .idle → s.schedule = [] →
    win s.block.winN < 5 ∨ win s.block.winN % 2 = 0 →
    ∃ (t u : State), exec i s = .next t ∧ core.run 1 t = .next u ∧
      u.block = { s.block with
        done := true, errCode := .noError, work := u.block.work
        result := toLimbs s.config.limbs
          (if win s.block.winN = 2 ∨ win s.block.winN = 3 then 1 else 0)
        witness := List.replicate s.config.limbs 0
        sValue := 0, trialCount := 0, drawCount := 0 } ∧
      s.SameEnvironment u

/-- R138, R151: MR_TRIAL on an odd candidate of at least 5 with a witness outside `[2, n - 2]` ends with
WITNESS_RANGE; no result register changes. With no turn named the engine moves first, the model's choice
(entry 5). -/
def Obligations.WitnessOutOfRange : Prop :=
  ∀ s : State, s.config.Legal → s.block.st = .idle → s.schedule = [] →
    s.block.winN.length = s.config.limbs → 5 ≤ win s.block.winN → win s.block.winN % 2 = 1 →
    win s.block.winA < 2 ∨ win s.block.winN - 2 < win s.block.winA →
    ∃ (t u : State) (k : Nat), exec .mrTrial s = .next t ∧ core.run k t = .next u ∧
      u.block = { s.block with
        done := true, errCode := .witnessRange, rndPending := false, work := u.block.work } ∧
      s.SameEnvironment u

/-- R147, R148, R151: MR_TRIAL on an odd candidate of at least 5, with a witness in range, ends with the
trial's outcome as its verdict and its bookkeeping in the readbacks, within the steps R154 counts. With no
turn named the engine moves first, the model's choice (entry 5). -/
def Obligations.MrTrialVerdict : Prop :=
  ∀ (s : State) (r e : Nat), s.config.Legal → s.block.st = .idle → s.schedule = [] →
    s.block.winN.length = s.config.limbs → 5 ≤ win s.block.winN → win s.block.winN % 2 = 1 →
    win s.block.winN - 1 = r * 2 ^ e → r % 2 = 1 →
    2 ≤ win s.block.winA → win s.block.winA ≤ win s.block.winN - 2 →
    ∃ (t u : State) (k verdict : Nat), exec .mrTrial s = .next t ∧ core.run k t = .next u ∧
      k ≤ 1 + (e + 1) + 1 + (Nat.size r + 1) + e + 1 ∧
      (TrialPasses (win s.block.winN) r e (win s.block.winA) → verdict = 1) ∧
      (¬TrialPasses (win s.block.winN) r e (win s.block.winA) → verdict = 0) ∧
      u.block = { s.block with
        done := true, errCode := .noError, work := u.block.work
        result := toLimbs s.config.limbs verdict
        witness := toLimbs s.config.limbs (win s.block.winA)
        sValue := BitVec.ofNat 16 e, trialCount := 1, drawCount := 0 } ∧
      s.SameEnvironment u

/-- R131, R139, R148, R150: MR_TEST on an odd candidate of at least 5, given in-range answers enough of
which are at least 2. Of the answers of at least 2 it tries the first `ITER - 1` in order: when all pass
it ends with verdict 1 and the last of them in WITNESS, else with verdict 0 and the FIRST that does not
pass in WITNESS. TRIAL_COUNT counts the values tried, DRAW_COUNT (saturating) the answers consumed, which
end with the last value tried; nothing else changes. With no turn named the engine moves first, the
model's choice (entry 5). -/
def Obligations.MrTestVerdict : Prop :=
  ∀ (s : State) (r e : Nat) (tried : List Nat), s.config.Legal → s.block.st = .idle →
    s.schedule = [] → s.block.winN.length = s.config.limbs →
    5 ≤ win s.block.winN → win s.block.winN % 2 = 1 →
    win s.block.winN - 1 = r * 2 ^ e → r % 2 = 1 → 1 ≤ s.block.iter.toNat →
    (∀ u ∈ s.answers, u < win s.block.winN - 1) →
    s.block.iter.toNat - 1 ≤ (s.answers.filter fun u => decide (2 ≤ u)).length →
    tried = (s.answers.filter fun u => decide (2 ≤ u)).take (s.block.iter.toNat - 1) →
    ∃ (t u : State) (k : Nat) (used : List Nat),
      exec .mrTest s = .next t ∧ core.run k t = .next u ∧
      s.answers = used ++ u.answers ∧ (∀ x ∈ used.getLast?, 2 ≤ x) ∧
      u = { s with
        answers := u.answers
        block := { s.block with
          done := true
          errCode := .noError
          work := u.block.work
          rndPending := u.block.rndPending
          rndBound := u.block.rndBound
          result := u.block.result
          witness := u.block.witness
          sValue := BitVec.ofNat 16 e
          trialCount := u.block.trialCount
          drawCount := u.block.drawCount } } ∧
      (s.block.rndPending = false → u.block.rndPending = false) ∧
      u.block.trialCount.toNat = (used.filter fun x => decide (2 ≤ x)).length ∧
      u.block.drawCount.toNat = min used.length 0xFFFFFFFF ∧
      ((∀ x ∈ tried, TrialPasses (win s.block.winN) r e x) →
        u.block.result = toLimbs s.config.limbs 1 ∧
          u.block.trialCount.toNat = s.block.iter.toNat - 1 ∧
          u.block.witness = toLimbs s.config.limbs (tried.getLastD 0)) ∧
      (¬(∀ x ∈ tried, TrialPasses (win s.block.winN) r e x) →
        u.block.result = toLimbs s.config.limbs 0 ∧
          ∃ (x : Nat) (before after : List Nat),
            tried = before ++ x :: after ∧
              (∀ y ∈ before, TrialPasses (win s.block.winN) r e y) ∧
              ¬TrialPasses (win s.block.winN) r e x ∧
              u.block.trialCount.toNat = before.length + 1 ∧
              u.block.witness = toLimbs s.config.limbs x)

/-- R152 (b), (c): whatever the interleaving, the witnesses and the random answers, a Miller-Rabin command
on a prime candidate never ends with verdict 0: the step that ends it successfully writes 1. -/
def Obligations.PrimeNeverGetsVerdictZero : Prop :=
  ∀ s t : State, s.Inv → step s = .next t → s.block.st ≠ .idle → s.block.work.op ≠ .powmod →
    Nat.Prime s.block.work.n → t.block.st = .idle → t.block.done = true →
    t.block.errCode = .noError → t.block.result = toLimbs s.config.limbs 1
end

