-- ==== Sys2Proof/Laws/State.lean ====
section
/-! SUPPORT. One lemma per field and update of the state: a later proof reads a field after an update
without unfolding the update. -/

namespace Sys2Proof.Machine

/-! ### fail (R202) -/

@[simp] theorem Block.fail_irqEn (c : ErrCode) (k : Block) : (k.fail c).irqEn = k.irqEn := rfl
@[simp] theorem Block.fail_done (c : ErrCode) (k : Block) : (k.fail c).done = true := rfl
@[simp] theorem Block.fail_ovr (c : ErrCode) (k : Block) : (k.fail c).ovr = k.ovr := rfl
@[simp] theorem Block.fail_errCode (c : ErrCode) (k : Block) : (k.fail c).errCode = c := rfl
@[simp] theorem Block.fail_iter (c : ErrCode) (k : Block) : (k.fail c).iter = k.iter := rfl
@[simp] theorem Block.fail_sValue (c : ErrCode) (k : Block) : (k.fail c).sValue = k.sValue := rfl
@[simp] theorem Block.fail_trialCount (c : ErrCode) (k : Block) : (k.fail c).trialCount = k.trialCount := rfl
@[simp] theorem Block.fail_drawCount (c : ErrCode) (k : Block) : (k.fail c).drawCount = k.drawCount := rfl
@[simp] theorem Block.fail_winA (c : ErrCode) (k : Block) : (k.fail c).winA = k.winA := rfl
@[simp] theorem Block.fail_winD (c : ErrCode) (k : Block) : (k.fail c).winD = k.winD := rfl
@[simp] theorem Block.fail_winN (c : ErrCode) (k : Block) : (k.fail c).winN = k.winN := rfl
@[simp] theorem Block.fail_result (c : ErrCode) (k : Block) : (k.fail c).result = k.result := rfl
@[simp] theorem Block.fail_witness (c : ErrCode) (k : Block) : (k.fail c).witness = k.witness := rfl
@[simp] theorem Block.fail_work (c : ErrCode) (k : Block) : (k.fail c).work = k.work := rfl
@[simp] theorem Block.fail_st (c : ErrCode) (k : Block) : (k.fail c).st = .idle := rfl
@[simp] theorem Block.fail_rndPending (c : ErrCode) (k : Block) : (k.fail c).rndPending = false := rfl
@[simp] theorem Block.fail_rndBound (c : ErrCode) (k : Block) : (k.fail c).rndBound = k.rndBound := rfl

/-! ### accept (R95) -/

@[simp] theorem Block.accept_irqEn (o : Opcode) (k : Block) : (k.accept o).irqEn = k.irqEn := rfl
@[simp] theorem Block.accept_done (o : Opcode) (k : Block) : (k.accept o).done = false := rfl
@[simp] theorem Block.accept_ovr (o : Opcode) (k : Block) : (k.accept o).ovr = k.ovr := rfl
@[simp] theorem Block.accept_errCode (o : Opcode) (k : Block) : (k.accept o).errCode = .noError := rfl
@[simp] theorem Block.accept_iter (o : Opcode) (k : Block) : (k.accept o).iter = k.iter := rfl
@[simp] theorem Block.accept_sValue (o : Opcode) (k : Block) : (k.accept o).sValue = k.sValue := rfl
@[simp] theorem Block.accept_trialCount (o : Opcode) (k : Block) : (k.accept o).trialCount = k.trialCount := rfl
@[simp] theorem Block.accept_drawCount (o : Opcode) (k : Block) : (k.accept o).drawCount = k.drawCount := rfl
@[simp] theorem Block.accept_winA (o : Opcode) (k : Block) : (k.accept o).winA = k.winA := rfl
@[simp] theorem Block.accept_winD (o : Opcode) (k : Block) : (k.accept o).winD = k.winD := rfl
@[simp] theorem Block.accept_winN (o : Opcode) (k : Block) : (k.accept o).winN = k.winN := rfl
@[simp] theorem Block.accept_result (o : Opcode) (k : Block) : (k.accept o).result = k.result := rfl
@[simp] theorem Block.accept_witness (o : Opcode) (k : Block) : (k.accept o).witness = k.witness := rfl
@[simp] theorem Block.accept_work (o : Opcode) (k : Block) : (k.accept o).work = { k.work with op := o, n := win k.winN } := rfl
@[simp] theorem Block.accept_st (o : Opcode) (k : Block) : (k.accept o).st = k.st := rfl
@[simp] theorem Block.accept_rndPending (o : Opcode) (k : Block) : (k.accept o).rndPending = k.rndPending := rfl
@[simp] theorem Block.accept_rndBound (o : Opcode) (k : Block) : (k.accept o).rndBound = k.rndBound := rfl

/-! ### finish_pm (R116) -/

@[simp] theorem Block.finishPm_irqEn (l : Nat) (k : Block) : (k.finishPm l).irqEn = k.irqEn := rfl
@[simp] theorem Block.finishPm_done (l : Nat) (k : Block) : (k.finishPm l).done = true := rfl
@[simp] theorem Block.finishPm_ovr (l : Nat) (k : Block) : (k.finishPm l).ovr = k.ovr := rfl
@[simp] theorem Block.finishPm_errCode (l : Nat) (k : Block) : (k.finishPm l).errCode = k.errCode := rfl
@[simp] theorem Block.finishPm_iter (l : Nat) (k : Block) : (k.finishPm l).iter = k.iter := rfl
@[simp] theorem Block.finishPm_sValue (l : Nat) (k : Block) : (k.finishPm l).sValue = k.sValue := rfl
@[simp] theorem Block.finishPm_trialCount (l : Nat) (k : Block) : (k.finishPm l).trialCount = k.trialCount := rfl
@[simp] theorem Block.finishPm_drawCount (l : Nat) (k : Block) : (k.finishPm l).drawCount = k.drawCount := rfl
@[simp] theorem Block.finishPm_winA (l : Nat) (k : Block) : (k.finishPm l).winA = k.winA := rfl
@[simp] theorem Block.finishPm_winD (l : Nat) (k : Block) : (k.finishPm l).winD = k.winD := rfl
@[simp] theorem Block.finishPm_winN (l : Nat) (k : Block) : (k.finishPm l).winN = k.winN := rfl
@[simp] theorem Block.finishPm_result (l : Nat) (k : Block) : (k.finishPm l).result = toLimbs l k.work.v := rfl
@[simp] theorem Block.finishPm_witness (l : Nat) (k : Block) : (k.finishPm l).witness = k.witness := rfl
@[simp] theorem Block.finishPm_work (l : Nat) (k : Block) : (k.finishPm l).work = k.work := rfl
@[simp] theorem Block.finishPm_st (l : Nat) (k : Block) : (k.finishPm l).st = .idle := rfl
@[simp] theorem Block.finishPm_rndPending (l : Nat) (k : Block) : (k.finishPm l).rndPending = k.rndPending := rfl
@[simp] theorem Block.finishPm_rndBound (l : Nat) (k : Block) : (k.finishPm l).rndBound = k.rndBound := rfl

/-! ### finish_mr (R148) -/

@[simp] theorem Block.finishMr_irqEn (l : Nat) (x : Bool) (k : Block) : (k.finishMr l x).irqEn = k.irqEn := rfl
@[simp] theorem Block.finishMr_done (l : Nat) (x : Bool) (k : Block) : (k.finishMr l x).done = true := rfl
@[simp] theorem Block.finishMr_ovr (l : Nat) (x : Bool) (k : Block) : (k.finishMr l x).ovr = k.ovr := rfl
@[simp] theorem Block.finishMr_errCode (l : Nat) (x : Bool) (k : Block) : (k.finishMr l x).errCode = k.errCode := rfl
@[simp] theorem Block.finishMr_iter (l : Nat) (x : Bool) (k : Block) : (k.finishMr l x).iter = k.iter := rfl
@[simp] theorem Block.finishMr_sValue (l : Nat) (x : Bool) (k : Block) : (k.finishMr l x).sValue = k.work.s := rfl
@[simp] theorem Block.finishMr_trialCount (l : Nat) (x : Bool) (k : Block) : (k.finishMr l x).trialCount = k.work.trials := rfl
@[simp] theorem Block.finishMr_drawCount (l : Nat) (x : Bool) (k : Block) : (k.finishMr l x).drawCount = k.work.draws := rfl
@[simp] theorem Block.finishMr_winA (l : Nat) (x : Bool) (k : Block) : (k.finishMr l x).winA = k.winA := rfl
@[simp] theorem Block.finishMr_winD (l : Nat) (x : Bool) (k : Block) : (k.finishMr l x).winD = k.winD := rfl
@[simp] theorem Block.finishMr_winN (l : Nat) (x : Bool) (k : Block) : (k.finishMr l x).winN = k.winN := rfl
@[simp] theorem Block.finishMr_result (l : Nat) (x : Bool) (k : Block) : (k.finishMr l x).result = toLimbs l x.toNat := rfl
@[simp] theorem Block.finishMr_witness (l : Nat) (x : Bool) (k : Block) : (k.finishMr l x).witness = toLimbs l (if k.work.trials = 0#32 then 0 else k.work.w) := rfl
@[simp] theorem Block.finishMr_work (l : Nat) (x : Bool) (k : Block) : (k.finishMr l x).work = k.work := rfl
@[simp] theorem Block.finishMr_st (l : Nat) (x : Bool) (k : Block) : (k.finishMr l x).st = .idle := rfl
@[simp] theorem Block.finishMr_rndPending (l : Nat) (x : Bool) (k : Block) : (k.finishMr l x).rndPending = k.rndPending := rfl
@[simp] theorem Block.finishMr_rndBound (l : Nat) (x : Bool) (k : Block) : (k.finishMr l x).rndBound = k.rndBound := rfl

/-! ### rnd_request (R140) -/

@[simp] theorem Block.rndRequest_irqEn (m : Nat) (k : Block) : (k.rndRequest m).irqEn = k.irqEn := rfl
@[simp] theorem Block.rndRequest_done (m : Nat) (k : Block) : (k.rndRequest m).done = k.done := rfl
@[simp] theorem Block.rndRequest_ovr (m : Nat) (k : Block) : (k.rndRequest m).ovr = k.ovr := rfl
@[simp] theorem Block.rndRequest_errCode (m : Nat) (k : Block) : (k.rndRequest m).errCode = k.errCode := rfl
@[simp] theorem Block.rndRequest_iter (m : Nat) (k : Block) : (k.rndRequest m).iter = k.iter := rfl
@[simp] theorem Block.rndRequest_sValue (m : Nat) (k : Block) : (k.rndRequest m).sValue = k.sValue := rfl
@[simp] theorem Block.rndRequest_trialCount (m : Nat) (k : Block) : (k.rndRequest m).trialCount = k.trialCount := rfl
@[simp] theorem Block.rndRequest_drawCount (m : Nat) (k : Block) : (k.rndRequest m).drawCount = k.drawCount := rfl
@[simp] theorem Block.rndRequest_winA (m : Nat) (k : Block) : (k.rndRequest m).winA = k.winA := rfl
@[simp] theorem Block.rndRequest_winD (m : Nat) (k : Block) : (k.rndRequest m).winD = k.winD := rfl
@[simp] theorem Block.rndRequest_winN (m : Nat) (k : Block) : (k.rndRequest m).winN = k.winN := rfl
@[simp] theorem Block.rndRequest_result (m : Nat) (k : Block) : (k.rndRequest m).result = k.result := rfl
@[simp] theorem Block.rndRequest_witness (m : Nat) (k : Block) : (k.rndRequest m).witness = k.witness := rfl
@[simp] theorem Block.rndRequest_work (m : Nat) (k : Block) : (k.rndRequest m).work = k.work := rfl
@[simp] theorem Block.rndRequest_st (m : Nat) (k : Block) : (k.rndRequest m).st = .mrDraw := rfl
@[simp] theorem Block.rndRequest_rndPending (m : Nat) (k : Block) : (k.rndRequest m).rndPending = true := rfl
@[simp] theorem Block.rndRequest_rndBound (m : Nat) (k : Block) : (k.rndRequest m).rndBound = m := rfl

/-! ### begin_trial (R144) -/

@[simp] theorem Block.beginTrial_irqEn (x : Nat) (k : Block) : (k.beginTrial x).irqEn = k.irqEn := rfl
@[simp] theorem Block.beginTrial_done (x : Nat) (k : Block) : (k.beginTrial x).done = k.done := rfl
@[simp] theorem Block.beginTrial_ovr (x : Nat) (k : Block) : (k.beginTrial x).ovr = k.ovr := rfl
@[simp] theorem Block.beginTrial_errCode (x : Nat) (k : Block) : (k.beginTrial x).errCode = k.errCode := rfl
@[simp] theorem Block.beginTrial_iter (x : Nat) (k : Block) : (k.beginTrial x).iter = k.iter := rfl
@[simp] theorem Block.beginTrial_sValue (x : Nat) (k : Block) : (k.beginTrial x).sValue = k.sValue := rfl
@[simp] theorem Block.beginTrial_trialCount (x : Nat) (k : Block) : (k.beginTrial x).trialCount = k.trialCount := rfl
@[simp] theorem Block.beginTrial_drawCount (x : Nat) (k : Block) : (k.beginTrial x).drawCount = k.drawCount := rfl
@[simp] theorem Block.beginTrial_winA (x : Nat) (k : Block) : (k.beginTrial x).winA = k.winA := rfl
@[simp] theorem Block.beginTrial_winD (x : Nat) (k : Block) : (k.beginTrial x).winD = k.winD := rfl
@[simp] theorem Block.beginTrial_winN (x : Nat) (k : Block) : (k.beginTrial x).winN = k.winN := rfl
@[simp] theorem Block.beginTrial_result (x : Nat) (k : Block) : (k.beginTrial x).result = k.result := rfl
@[simp] theorem Block.beginTrial_witness (x : Nat) (k : Block) : (k.beginTrial x).witness = k.witness := rfl
@[simp] theorem Block.beginTrial_work (x : Nat) (k : Block) : (k.beginTrial x).work = 
      { k.work with w := x, trials := k.work.trials + 1, b := x, e := k.work.r, v := 1 } := rfl
@[simp] theorem Block.beginTrial_st (x : Nat) (k : Block) : (k.beginTrial x).st = .mrPow := rfl
@[simp] theorem Block.beginTrial_rndPending (x : Nat) (k : Block) : (k.beginTrial x).rndPending = k.rndPending := rfl
@[simp] theorem Block.beginTrial_rndBound (x : Nat) (k : Block) : (k.beginTrial x).rndBound = k.rndBound := rfl

/-! ### IRQ_EN (R183) -/

@[simp] theorem Block.setIrqEn_irqEn (q : Bool) (k : Block) : (k.setIrqEn q).irqEn = q := rfl
@[simp] theorem Block.setIrqEn_done (q : Bool) (k : Block) : (k.setIrqEn q).done = k.done := rfl
@[simp] theorem Block.setIrqEn_ovr (q : Bool) (k : Block) : (k.setIrqEn q).ovr = k.ovr := rfl
@[simp] theorem Block.setIrqEn_errCode (q : Bool) (k : Block) : (k.setIrqEn q).errCode = k.errCode := rfl
@[simp] theorem Block.setIrqEn_iter (q : Bool) (k : Block) : (k.setIrqEn q).iter = k.iter := rfl
@[simp] theorem Block.setIrqEn_sValue (q : Bool) (k : Block) : (k.setIrqEn q).sValue = k.sValue := rfl
@[simp] theorem Block.setIrqEn_trialCount (q : Bool) (k : Block) : (k.setIrqEn q).trialCount = k.trialCount := rfl
@[simp] theorem Block.setIrqEn_drawCount (q : Bool) (k : Block) : (k.setIrqEn q).drawCount = k.drawCount := rfl
@[simp] theorem Block.setIrqEn_winA (q : Bool) (k : Block) : (k.setIrqEn q).winA = k.winA := rfl
@[simp] theorem Block.setIrqEn_winD (q : Bool) (k : Block) : (k.setIrqEn q).winD = k.winD := rfl
@[simp] theorem Block.setIrqEn_winN (q : Bool) (k : Block) : (k.setIrqEn q).winN = k.winN := rfl
@[simp] theorem Block.setIrqEn_result (q : Bool) (k : Block) : (k.setIrqEn q).result = k.result := rfl
@[simp] theorem Block.setIrqEn_witness (q : Bool) (k : Block) : (k.setIrqEn q).witness = k.witness := rfl
@[simp] theorem Block.setIrqEn_work (q : Bool) (k : Block) : (k.setIrqEn q).work = k.work := rfl
@[simp] theorem Block.setIrqEn_st (q : Bool) (k : Block) : (k.setIrqEn q).st = k.st := rfl
@[simp] theorem Block.setIrqEn_rndPending (q : Bool) (k : Block) : (k.setIrqEn q).rndPending = k.rndPending := rfl
@[simp] theorem Block.setIrqEn_rndBound (q : Bool) (k : Block) : (k.setIrqEn q).rndBound = k.rndBound := rfl

/-! ### a STATUS write (R187) -/

@[simp] theorem Block.clearStatus_irqEn (x : Word) (k : Block) : (k.clearStatus x).irqEn = k.irqEn := rfl
@[simp] theorem Block.clearStatus_done (x : Word) (k : Block) : (k.clearStatus x).done = 
      if x.getLsbD 1 then false else k.done := rfl
@[simp] theorem Block.clearStatus_ovr (x : Word) (k : Block) : (k.clearStatus x).ovr = 
      if x.getLsbD 3 then false else k.ovr := rfl
@[simp] theorem Block.clearStatus_errCode (x : Word) (k : Block) : (k.clearStatus x).errCode = 
      if x.getLsbD 1 then .noError else k.errCode := rfl
@[simp] theorem Block.clearStatus_iter (x : Word) (k : Block) : (k.clearStatus x).iter = k.iter := rfl
@[simp] theorem Block.clearStatus_sValue (x : Word) (k : Block) : (k.clearStatus x).sValue = k.sValue := rfl
@[simp] theorem Block.clearStatus_trialCount (x : Word) (k : Block) : (k.clearStatus x).trialCount = k.trialCount := rfl
@[simp] theorem Block.clearStatus_drawCount (x : Word) (k : Block) : (k.clearStatus x).drawCount = k.drawCount := rfl
@[simp] theorem Block.clearStatus_winA (x : Word) (k : Block) : (k.clearStatus x).winA = k.winA := rfl
@[simp] theorem Block.clearStatus_winD (x : Word) (k : Block) : (k.clearStatus x).winD = k.winD := rfl
@[simp] theorem Block.clearStatus_winN (x : Word) (k : Block) : (k.clearStatus x).winN = k.winN := rfl
@[simp] theorem Block.clearStatus_result (x : Word) (k : Block) : (k.clearStatus x).result = k.result := rfl
@[simp] theorem Block.clearStatus_witness (x : Word) (k : Block) : (k.clearStatus x).witness = k.witness := rfl
@[simp] theorem Block.clearStatus_work (x : Word) (k : Block) : (k.clearStatus x).work = k.work := rfl
@[simp] theorem Block.clearStatus_st (x : Word) (k : Block) : (k.clearStatus x).st = k.st := rfl
@[simp] theorem Block.clearStatus_rndPending (x : Word) (k : Block) : (k.clearStatus x).rndPending = k.rndPending := rfl
@[simp] theorem Block.clearStatus_rndBound (x : Word) (k : Block) : (k.clearStatus x).rndBound = k.rndBound := rfl

/-! ### the square-and-multiply iteration (R113) -/

@[simp] theorem Working.iterate_op (k : Working) : k.iterate.op = k.op := rfl
@[simp] theorem Working.iterate_n (k : Working) : k.iterate.n = k.n := rfl
@[simp] theorem Working.iterate_b (k : Working) : k.iterate.b = mulmod k.b k.b k.n := rfl
@[simp] theorem Working.iterate_e (k : Working) : k.iterate.e = k.e / 2 := rfl
@[simp] theorem Working.iterate_v (k : Working) : k.iterate.v = 
      if k.e % 2 = 1 then mulmod k.v k.b k.n else k.v := rfl
@[simp] theorem Working.iterate_r (k : Working) : k.iterate.r = k.r := rfl
@[simp] theorem Working.iterate_s (k : Working) : k.iterate.s = k.s := rfl
@[simp] theorem Working.iterate_y (k : Working) : k.iterate.y = k.y := rfl
@[simp] theorem Working.iterate_j (k : Working) : k.iterate.j = k.j := rfl
@[simp] theorem Working.iterate_wa (k : Working) : k.iterate.wa = k.wa := rfl
@[simp] theorem Working.iterate_w (k : Working) : k.iterate.w = k.w := rfl
@[simp] theorem Working.iterate_eff (k : Working) : k.iterate.eff = k.eff := rfl
@[simp] theorem Working.iterate_trials (k : Working) : k.iterate.trials = k.trials := rfl
@[simp] theorem Working.iterate_draws (k : Working) : k.iterate.draws = k.draws := rfl

/-! ### reset of the block (R185, R230) -/

@[simp] theorem Block.reset_irqEn (l : Nat) (g : Working) (m : Nat) :
    (Block.reset l g m).irqEn = false := rfl
@[simp] theorem Block.reset_done (l : Nat) (g : Working) (m : Nat) :
    (Block.reset l g m).done = false := rfl
@[simp] theorem Block.reset_ovr (l : Nat) (g : Working) (m : Nat) :
    (Block.reset l g m).ovr = false := rfl
@[simp] theorem Block.reset_errCode (l : Nat) (g : Working) (m : Nat) :
    (Block.reset l g m).errCode = .noError := rfl
@[simp] theorem Block.reset_iter (l : Nat) (g : Working) (m : Nat) :
    (Block.reset l g m).iter = 0 := rfl
@[simp] theorem Block.reset_sValue (l : Nat) (g : Working) (m : Nat) :
    (Block.reset l g m).sValue = 0 := rfl
@[simp] theorem Block.reset_trialCount (l : Nat) (g : Working) (m : Nat) :
    (Block.reset l g m).trialCount = 0 := rfl
@[simp] theorem Block.reset_drawCount (l : Nat) (g : Working) (m : Nat) :
    (Block.reset l g m).drawCount = 0 := rfl
@[simp] theorem Block.reset_winA (l : Nat) (g : Working) (m : Nat) :
    (Block.reset l g m).winA = List.replicate l 0 := rfl
@[simp] theorem Block.reset_winD (l : Nat) (g : Working) (m : Nat) :
    (Block.reset l g m).winD = List.replicate l 0 := rfl
@[simp] theorem Block.reset_winN (l : Nat) (g : Working) (m : Nat) :
    (Block.reset l g m).winN = List.replicate l 0 := rfl
@[simp] theorem Block.reset_result (l : Nat) (g : Working) (m : Nat) :
    (Block.reset l g m).result = List.replicate l 0 := rfl
@[simp] theorem Block.reset_witness (l : Nat) (g : Working) (m : Nat) :
    (Block.reset l g m).witness = List.replicate l 0 := rfl
@[simp] theorem Block.reset_work (l : Nat) (g : Working) (m : Nat) :
    (Block.reset l g m).work = g := rfl
@[simp] theorem Block.reset_st (l : Nat) (g : Working) (m : Nat) :
    (Block.reset l g m).st = .idle := rfl
@[simp] theorem Block.reset_rndPending (l : Nat) (g : Working) (m : Nat) :
    (Block.reset l g m).rndPending = false := rfl
@[simp] theorem Block.reset_rndBound (l : Nat) (g : Working) (m : Nat) :
    (Block.reset l g m).rndBound = m := rfl
@[simp] theorem State.resetBlock_config (s : State) : s.resetBlock.config = s.config := rfl
@[simp] theorem State.resetBlock_program (s : State) : s.resetBlock.program = s.program := rfl
@[simp] theorem State.resetBlock_schedule (s : State) : s.resetBlock.schedule = s.schedule := rfl
@[simp] theorem State.resetBlock_answers (s : State) : s.resetBlock.answers = s.answers := rfl
@[simp] theorem State.resetBlock_received (s : State) : s.resetBlock.received = s.received := rfl
@[simp] theorem State.resetBlock_freeCount (s : State) :
    s.resetBlock.freeCount = s.freeCount + 1 := rfl

theorem State.resetBlock_block (s : State) :
    s.resetBlock.block = Block.reset s.config.limbs (freeWorking s.config.width s.freeCount)
      (Config.freeValue s.freeCount 14 % 2 ^ s.config.width) := rfl

end Sys2Proof.Machine
end

