-- ==== Sys2Proof/Laws/Ops.lean ====
section
/-! SUPPORT. Everything a shared operation can do, once per operation. -/

namespace Sys2Proof.Machine

theorem Block.busy_iff (k : Block) : k.busy = true ↔ k.st ≠ .idle := by simp [Block.busy]

theorem Block.not_busy_iff (k : Block) : k.busy = false ↔ k.st = .idle := by simp [Block.busy]

theorem Block.err_iff (k : Block) : k.err = true ↔ k.errCode ≠ .noError := by simp [Block.err]

/-- A submission does one of three things (R93). -/
theorem Block.submit_cases (k : Block) (error : Option ErrCode) (started : Block) :
    (k.st ≠ .idle ∧ k.submit error started = { k with ovr := true }) ∨
      (k.st = .idle ∧ ∃ c, error = some c ∧ k.submit error started = k.fail c) ∨
      (k.st = .idle ∧ error = none ∧ k.submit error started = started) := by
  unfold Block.submit
  by_cases h : k.st = .idle
  · have hb : k.busy = false := k.not_busy_iff.mpr h
    cases error with
    | some c => exact .inr (.inl ⟨h, c, rfl, by simp [hb]⟩)
    | none => exact .inr (.inr ⟨h, rfl, by simp [hb]⟩)
  · have hb : k.busy = true := k.busy_iff.mpr h
    exact .inl ⟨h, by simp [hb]⟩

/-- A submission while a command runs only sets OVR (R94). -/
theorem Block.submit_busy {k : Block} (h : k.st ≠ .idle) (error : Option ErrCode) (started : Block) :
    k.submit error started = { k with ovr := true } := by
  simp [Block.submit, k.busy_iff.mpr h]

theorem Block.submit_error {k : Block} (h : k.st = .idle) (c : ErrCode) (started : Block) :
    k.submit (some c) started = k.fail c := by
  simp [Block.submit, k.not_busy_iff.mpr h]

theorem Block.submit_started {k : Block} (h : k.st = .idle) (started : Block) :
    k.submit none started = started := by
  simp [Block.submit, k.not_busy_iff.mpr h]

/-- An abort ends a running command with ABORTED and does nothing while idle (R184). -/
theorem Block.abort_cases (k : Block) :
    (k.st ≠ .idle ∧ k.abort = k.fail .aborted) ∨ (k.st = .idle ∧ k.abort = k) := by
  unfold Block.abort
  by_cases h : k.st = .idle
  · exact .inr ⟨h, by simp [k.not_busy_iff.mpr h]⟩
  · exact .inl ⟨h, by simp [k.busy_iff.mpr h]⟩

/-- What a wide free register holds fits the operand width. -/
theorem freeWorking_wide (width c : Nat) :
    (freeWorking width c).n < 2 ^ width ∧ (freeWorking width c).b < 2 ^ width ∧
      (freeWorking width c).e < 2 ^ width ∧ (freeWorking width c).v < 2 ^ width ∧
      (freeWorking width c).r < 2 ^ width ∧ (freeWorking width c).y < 2 ^ width ∧
      (freeWorking width c).wa < 2 ^ width ∧ (freeWorking width c).w < 2 ^ width := by
  have h : ∀ x : Nat, x % 2 ^ width < 2 ^ width := fun x => Nat.mod_lt _ (Nat.two_pow_pos width)
  exact ⟨h _, h _, h _, h _, h _, h _, h _, h _⟩

/-- The meaning of every instruction is a next state: no instruction stops the run. -/
theorem exec_next (i : Instr) (s : State) : ∃ t, exec i s = .next t := by
  cases i <;> exact ⟨_, rfl⟩

end Sys2Proof.Machine
end

