-- ==== Sys2Proof/Laws/Engine.lean ====
section
/-! SUPPORT. The engine's step, by sequencer state: when it has one, and every case of what it does. -/

namespace Sys2Proof.Machine

/-- Outside MR_DRAW the engine's step is the block's and consumes no answer. -/
theorem State.engineStep_of_ne_draw {s : State} (h : s.block.st ≠ .mrDraw) :
    s.engineStep = (s.block.engineStep s.config.limbs).map fun k => { s with block := k } := by
  unfold State.engineStep
  split <;> simp_all

theorem State.engineStep_draw_nil {s : State} (h : s.block.st = .mrDraw) (ha : s.answers = []) :
    s.engineStep = none := by
  simp [State.engineStep, h, ha]

theorem State.engineStep_draw_cons {s : State} {u : Nat} {us : List Nat} (h : s.block.st = .mrDraw)
    (ha : s.answers = u :: us) :
    s.engineStep = some { s with block := s.block.mrDrawStep u, answers := us } := by
  simp [State.engineStep, h, ha]

/-- Every engine step: the sequencer state it starts in, and its result (R113 to R146). -/
theorem State.engineStep_cases {s t : State} (h : s.engineStep = some t) :
    (s.block.st = .pmLoop ∧ t = { s with block := s.block.pmLoopStep s.config.limbs }) ∨
      (s.block.st = .mrCheck ∧ t = { s with block := s.block.mrCheckStep s.config.limbs }) ∨
      (s.block.st = .mrDecomp ∧ t = { s with block := s.block.mrDecompStep }) ∨
      (s.block.st = .mrNext ∧ t = { s with block := s.block.mrNextStep s.config.limbs }) ∨
      (s.block.st = .mrDraw ∧ ∃ u us, s.answers = u :: us ∧
        t = { s with block := s.block.mrDrawStep u, answers := us }) ∨
      (s.block.st = .mrPow ∧ t = { s with block := s.block.mrPowStep }) ∨
      (s.block.st = .mrChain ∧ t = { s with block := s.block.mrChainStep s.config.limbs }) := by
  by_cases hd : s.block.st = .mrDraw
  · cases ha : s.answers with
    | nil => rw [State.engineStep_draw_nil hd ha] at h; cases h
    | cons u us =>
      rw [State.engineStep_draw_cons hd ha] at h
      cases h
      simp [hd]
  · rw [State.engineStep_of_ne_draw hd] at h
    cases hst : s.block.st <;> simp [Block.engineStep, hst] at h hd ⊢ <;> exact h.symm

/-- PM_LOOP: an iteration or the end (R113, R114). -/
theorem Block.pmLoopStep_cases (limbs : Nat) (k : Block) :
    (k.work.e ≠ 0 ∧ k.pmLoopStep limbs = { k with work := k.work.iterate }) ∨
      (k.work.e = 0 ∧ k.pmLoopStep limbs = k.finishPm limbs) := by
  by_cases h : k.work.e = 0
  · exact .inr ⟨h, by simp [Block.pmLoopStep, h]⟩
  · exact .inl ⟨h, by simp [Block.pmLoopStep, h]⟩

/-- MR_CHECK: a special case's verdict, or on to the decomposition (R135). -/
theorem Block.mrCheckStep_cases (limbs : Nat) (k : Block) :
    (k.work.n < 5 ∧ k.mrCheckStep limbs = k.finishMr limbs (k.work.n == 2 || k.work.n == 3)) ∨
      (5 ≤ k.work.n ∧ k.work.n % 2 = 0 ∧ k.mrCheckStep limbs = k.finishMr limbs false) ∨
      (k.work.Candidate ∧
        k.mrCheckStep limbs = { k with work := { k.work with r := k.work.n - 1 }, st := .mrDecomp }) := by
  unfold Block.mrCheckStep Working.Candidate
  by_cases h5 : k.work.n < 5
  · exact .inl ⟨h5, by simp [h5]⟩
  · by_cases h2 : k.work.n % 2 = 0
    · exact .inr (.inl ⟨by omega, h2, by simp [h5, h2]⟩)
    · exact .inr (.inr ⟨⟨by omega, by omega⟩, by simp [h5, h2]⟩)

/-- MR_DECOMP: one halving, or on to the trials (R136). -/
theorem Block.mrDecompStep_cases (k : Block) :
    (k.work.r % 2 = 0 ∧
        k.mrDecompStep = { k with work := { k.work with r := k.work.r / 2, s := k.work.s + 1 } }) ∨
      (k.work.r % 2 = 1 ∧ k.mrDecompStep = { k with st := .mrNext }) := by
  by_cases h : k.work.r % 2 = 0
  · exact .inl ⟨h, by simp [Block.mrDecompStep, h]⟩
  · exact .inr ⟨by omega, by simp [Block.mrDecompStep, h]⟩

/-- MR_NEXT: the end, a range error, the host's witness, or a request (R137). -/
theorem Block.mrNextStep_cases (limbs : Nat) (k : Block) :
    (k.work.trials = k.work.eff ∧ k.mrNextStep limbs = k.finishMr limbs true) ∨
      (k.work.trials ≠ k.work.eff ∧ k.work.op = .mrTrial ∧
        (k.work.wa < 2 ∨ k.work.n - 2 < k.work.wa) ∧ k.mrNextStep limbs = k.fail .witnessRange) ∨
      (k.work.trials ≠ k.work.eff ∧ k.work.op = .mrTrial ∧ 2 ≤ k.work.wa ∧
        k.work.wa ≤ k.work.n - 2 ∧ k.mrNextStep limbs = k.beginTrial k.work.wa) ∨
      (k.work.trials ≠ k.work.eff ∧ k.work.op ≠ .mrTrial ∧
        k.mrNextStep limbs = k.rndRequest (k.work.n - 1)) := by
  unfold Block.mrNextStep
  by_cases ht : k.work.trials = k.work.eff
  · exact .inl ⟨ht, by simp [ht]⟩
  · by_cases ho : k.work.op = .mrTrial
    · by_cases hr : k.work.wa < 2 ∨ k.work.n - 2 < k.work.wa
      · exact .inr (.inl ⟨ht, ho, hr, by rw [if_neg ht, if_pos ho, if_pos hr]⟩)
      · exact .inr (.inr (.inl ⟨ht, ho, by omega, by omega, by rw [if_neg ht, if_pos ho, if_neg hr]⟩))
    · exact .inr (.inr (.inr ⟨ht, ho, by simp [ht, ho]⟩))

/-- MR_DRAW with a value: out of range, a re-draw, or a trial (R142). -/
theorem Block.mrDrawStep_cases (u : Nat) (k : Block) :
    (k.rndBound ≤ u ∧ k.mrDrawStep u =
        Block.fail .rndFault { k with work := { k.work with draws := satIncr k.work.draws } }) ∨
      (u < k.rndBound ∧ u < 2 ∧ k.mrDrawStep u = Block.rndRequest k.rndBound
        { k with work := { k.work with draws := satIncr k.work.draws } }) ∨
      (u < k.rndBound ∧ 2 ≤ u ∧ k.mrDrawStep u = Block.beginTrial u
        { k with work := { k.work with draws := satIncr k.work.draws }, rndPending := false }) := by
  unfold Block.mrDrawStep
  by_cases hb : k.rndBound ≤ u
  · exact .inl ⟨hb, by simp [hb]⟩
  · by_cases h2 : u < 2
    · exact .inr (.inl ⟨by omega, h2, by simp [hb, h2]⟩)
    · exact .inr (.inr ⟨by omega, by omega, by simp [hb, h2]⟩)

/-- MR_POW: an iteration, a trial passed, or on to the chain (R145). -/
theorem Block.mrPowStep_cases (k : Block) :
    (k.work.e ≠ 0 ∧ k.mrPowStep = { k with work := k.work.iterate }) ∨
      (k.work.e = 0 ∧ (k.work.v = 1 ∨ k.work.v = k.work.n - 1) ∧
        k.mrPowStep = { k with work := { k.work with y := k.work.v }, st := .mrNext }) ∨
      (k.work.e = 0 ∧ k.work.v ≠ 1 ∧ k.work.v ≠ k.work.n - 1 ∧
        k.mrPowStep = { k with work := { k.work with y := k.work.v, j := 1 }, st := .mrChain }) := by
  unfold Block.mrPowStep
  by_cases he : k.work.e = 0
  · by_cases hv : k.work.v = 1 ∨ k.work.v = k.work.n - 1
    · exact .inr (.inl ⟨he, hv, by simp [he, hv]⟩)
    · exact .inr (.inr ⟨he, fun h => hv (.inl h), fun h => hv (.inr h), by simp [he, hv]⟩)
  · exact .inl ⟨he, by simp [he]⟩

/-- MR_CHAIN: a squaring (ending the command when it gives 1), the end of the chain short of `n - 1`, or
a trial passed (R146). -/
theorem Block.mrChainStep_cases (limbs : Nat) (k : Block) :
    (k.work.j.toNat + 1 ≤ k.work.s.toNat ∧ k.work.y ≠ k.work.n - 1 ∧
        mulmod k.work.y k.work.y k.work.n = 1 ∧
        k.mrChainStep limbs = Block.finishMr limbs false
          { k with work := { k.work with y := 1, j := k.work.j + 1 } }) ∨
      (k.work.j.toNat + 1 ≤ k.work.s.toNat ∧ k.work.y ≠ k.work.n - 1 ∧
        mulmod k.work.y k.work.y k.work.n ≠ 1 ∧
        k.mrChainStep limbs =
          { k with work :=
            { k.work with y := mulmod k.work.y k.work.y k.work.n, j := k.work.j + 1 } }) ∨
      (k.work.s.toNat < k.work.j.toNat + 1 ∧ k.work.y ≠ k.work.n - 1 ∧
        k.mrChainStep limbs = k.finishMr limbs false) ∨
      (k.work.y = k.work.n - 1 ∧ k.mrChainStep limbs = { k with st := .mrNext }) := by
  unfold Block.mrChainStep
  by_cases hy : k.work.y = k.work.n - 1
  · exact .inr (.inr (.inr ⟨hy, by simp [hy]⟩))
  · by_cases hj : k.work.j.toNat + 1 ≤ k.work.s.toNat
    · by_cases h1 : mulmod k.work.y k.work.y k.work.n = 1
      · exact .inl ⟨hj, hy, h1, by simp [hy, hj, h1]⟩
      · exact .inr (.inl ⟨hj, hy, h1, by simp [hy, hj, h1]⟩)
    · exact .inr (.inr (.inl ⟨by omega, hy, by simp [hy, hj]⟩))

/-- Everything an engine step can do to the block, case by case (R113, R114, R135 to R137, R142, R145,
R146). -/
inductive Block.EngineMove (limbs : Nat) (k : Block) : Block → Prop
  | pmIterate (hst : k.st = .pmLoop) (he : k.work.e ≠ 0) :
      EngineMove limbs k { k with work := k.work.iterate }
  | pmEnd (hst : k.st = .pmLoop) (he : k.work.e = 0) : EngineMove limbs k (k.finishPm limbs)
  | checkSmall (hst : k.st = .mrCheck) (hn : k.work.n < 5) :
      EngineMove limbs k (k.finishMr limbs (k.work.n == 2 || k.work.n == 3))
  | checkEven (hst : k.st = .mrCheck) (hn : 5 ≤ k.work.n) (heven : k.work.n % 2 = 0) :
      EngineMove limbs k (k.finishMr limbs false)
  | checkOdd (hst : k.st = .mrCheck) (hn : k.work.Candidate) :
      EngineMove limbs k { k with work := { k.work with r := k.work.n - 1 }, st := .mrDecomp }
  | halve (hst : k.st = .mrDecomp) (hr : k.work.r % 2 = 0) :
      EngineMove limbs k { k with work := { k.work with r := k.work.r / 2, s := k.work.s + 1 } }
  | decomposed (hst : k.st = .mrDecomp) (hr : k.work.r % 2 = 1) :
      EngineMove limbs k { k with st := .mrNext }
  | allPassed (hst : k.st = .mrNext) (ht : k.work.trials = k.work.eff) :
      EngineMove limbs k (k.finishMr limbs true)
  | outOfRange (hst : k.st = .mrNext) (ht : k.work.trials ≠ k.work.eff) (hop : k.work.op = .mrTrial)
      (hr : k.work.wa < 2 ∨ k.work.n - 2 < k.work.wa) : EngineMove limbs k (k.fail .witnessRange)
  | hostWitness (hst : k.st = .mrNext) (ht : k.work.trials ≠ k.work.eff)
      (hop : k.work.op = .mrTrial) (h2 : 2 ≤ k.work.wa) (hn : k.work.wa ≤ k.work.n - 2) :
      EngineMove limbs k (k.beginTrial k.work.wa)
  | request (hst : k.st = .mrNext) (ht : k.work.trials ≠ k.work.eff) (hop : k.work.op ≠ .mrTrial) :
      EngineMove limbs k (k.rndRequest (k.work.n - 1))
  | drawFault (hst : k.st = .mrDraw) (u : Nat) (hu : k.rndBound ≤ u) :
      EngineMove limbs k (Block.fail .rndFault
        { k with work := { k.work with draws := satIncr k.work.draws } })
  | redraw (hst : k.st = .mrDraw) (u : Nat) (hu : u < k.rndBound) (h2 : u < 2) :
      EngineMove limbs k (Block.rndRequest k.rndBound
        { k with work := { k.work with draws := satIncr k.work.draws } })
  | drawn (hst : k.st = .mrDraw) (u : Nat) (hu : u < k.rndBound) (h2 : 2 ≤ u) :
      EngineMove limbs k (Block.beginTrial u
        { k with work := { k.work with draws := satIncr k.work.draws }, rndPending := false })
  | powIterate (hst : k.st = .mrPow) (he : k.work.e ≠ 0) :
      EngineMove limbs k { k with work := k.work.iterate }
  | powPassed (hst : k.st = .mrPow) (he : k.work.e = 0)
      (hv : k.work.v = 1 ∨ k.work.v = k.work.n - 1) :
      EngineMove limbs k { k with work := { k.work with y := k.work.v }, st := .mrNext }
  | powToChain (hst : k.st = .mrPow) (he : k.work.e = 0) (h1 : k.work.v ≠ 1)
      (hn : k.work.v ≠ k.work.n - 1) :
      EngineMove limbs k { k with work := { k.work with y := k.work.v, j := 1 }, st := .mrChain }
  | squareToOne (hst : k.st = .mrChain) (hj : k.work.j.toNat + 1 ≤ k.work.s.toNat)
      (hy : k.work.y ≠ k.work.n - 1) (h1 : mulmod k.work.y k.work.y k.work.n = 1) :
      EngineMove limbs k (Block.finishMr limbs false
        { k with work := { k.work with y := 1, j := k.work.j + 1 } })
  | square (hst : k.st = .mrChain) (hj : k.work.j.toNat + 1 ≤ k.work.s.toNat)
      (hy : k.work.y ≠ k.work.n - 1) (h1 : mulmod k.work.y k.work.y k.work.n ≠ 1) :
      EngineMove limbs k { k with work :=
        { k.work with y := mulmod k.work.y k.work.y k.work.n, j := k.work.j + 1 } }
  | chainEnd (hst : k.st = .mrChain) (hj : k.work.s.toNat < k.work.j.toNat + 1)
      (hy : k.work.y ≠ k.work.n - 1) : EngineMove limbs k (k.finishMr limbs false)
  | chainPassed (hst : k.st = .mrChain) (hy : k.work.y = k.work.n - 1) :
      EngineMove limbs k { k with st := .mrNext }

/-- The engine's step is one of these moves and changes nothing but the block and the answers. -/
theorem State.engineStep_move {s t : State} (h : s.engineStep = some t) :
    Block.EngineMove s.config.limbs s.block t.block ∧ t.config = s.config ∧
      t.program = s.program ∧ t.schedule = s.schedule ∧ t.received = s.received ∧
      t.freeCount = s.freeCount := by
  rcases State.engineStep_cases h with
    ⟨hst, rfl⟩ | ⟨hst, rfl⟩ | ⟨hst, rfl⟩ | ⟨hst, rfl⟩ | ⟨hst, u, us, -, rfl⟩ | ⟨hst, rfl⟩ | ⟨hst, rfl⟩ <;>
    refine ⟨?_, rfl, rfl, rfl, rfl, rfl⟩
  · rcases s.block.pmLoopStep_cases s.config.limbs with ⟨he, hk⟩ | ⟨he, hk⟩ <;> simp only [hk]
    · exact .pmIterate hst he
    · exact .pmEnd hst he
  · rcases s.block.mrCheckStep_cases s.config.limbs with ⟨h5, hk⟩ | ⟨h5, h2, hk⟩ | ⟨hc, hk⟩ <;>
      simp only [hk]
    · exact .checkSmall hst h5
    · exact .checkEven hst h5 h2
    · exact .checkOdd hst hc
  · rcases s.block.mrDecompStep_cases with ⟨hr, hk⟩ | ⟨hr, hk⟩ <;> simp only [hk]
    · exact .halve hst hr
    · exact .decomposed hst hr
  · rcases s.block.mrNextStep_cases s.config.limbs with
      ⟨ht, hk⟩ | ⟨ht, ho, hr, hk⟩ | ⟨ht, ho, h2, hn, hk⟩ | ⟨ht, ho, hk⟩ <;> simp only [hk]
    · exact .allPassed hst ht
    · exact .outOfRange hst ht ho hr
    · exact .hostWitness hst ht ho h2 hn
    · exact .request hst ht ho
  · rcases s.block.mrDrawStep_cases u with ⟨hu, hk⟩ | ⟨hu, h2, hk⟩ | ⟨hu, h2, hk⟩ <;> simp only [hk]
    · exact .drawFault hst u hu
    · exact .redraw hst u hu h2
    · exact .drawn hst u hu h2
  · rcases s.block.mrPowStep_cases with ⟨he, hk⟩ | ⟨he, hv, hk⟩ | ⟨he, h1, hn, hk⟩ <;> simp only [hk]
    · exact .powIterate hst he
    · exact .powPassed hst he hv
    · exact .powToChain hst he h1 hn
  · rcases s.block.mrChainStep_cases s.config.limbs with
      ⟨hj, hy, h1, hk⟩ | ⟨hj, hy, h1, hk⟩ | ⟨hj, hy, hk⟩ | ⟨hy, hk⟩ <;> simp only [hk]
    · exact .squareToOne hst hj hy h1
    · exact .square hst hj hy h1
    · exact .chainEnd hst hj hy
    · exact .chainPassed hst hy

/-- The engine consumes a random answer in MR_DRAW alone, and there exactly one (R141, R142). -/
theorem State.engineStep_answers {s t : State} (h : s.engineStep = some t) :
    (s.block.st ≠ .mrDraw ∧ t.answers = s.answers) ∨
      (s.block.st = .mrDraw ∧ ∃ u, s.answers = u :: t.answers ∧ t.block = s.block.mrDrawStep u) := by
  rcases State.engineStep_cases h with
    ⟨hst, rfl⟩ | ⟨hst, rfl⟩ | ⟨hst, rfl⟩ | ⟨hst, rfl⟩ | ⟨hst, u, us, ha, rfl⟩ | ⟨hst, rfl⟩ | ⟨hst, rfl⟩
  case inr.inr.inr.inr.inl => exact .inr ⟨hst, u, ha, rfl⟩
  all_goals exact .inl ⟨by simp [hst], rfl⟩

end Sys2Proof.Machine
end

