-- ==== Sys2Proof/Laws/HostPort.lean ====
section
/-! SUPPORT. The register map is one-to-one (R38), which accesses are legal (R74), and everything a host
transaction can do (R180, R181). -/

namespace Sys2Proof.Machine

/-- The mapped offsets are those of the control registers and the five windows (R38, R74). -/
theorem regAt_isSome_iff (off : Nat) :
    (∃ reg, regAt off = some reg) ↔ off < 0x024 ∨ (0x400 ≤ off ∧ off < 0x1800) := by
  unfold regAt
  split
  · next h =>
    refine ⟨fun _ => .inl h, fun _ => ?_⟩
    split <;> exact ⟨_, rfl⟩
  · repeat' split
    all_goals simp only [reduceCtorEq, exists_false, Option.some.injEq, exists_eq', true_iff, false_iff]
    all_goals omega

/-- A legal access is an aligned word of a mapped register (R73, R74). -/
theorem access_ok_iff (width off : Nat) :
    (∃ reg, access width off = .ok reg) ↔
      width = 4 ∧ off % 4 = 0 ∧ (off < 0x024 ∨ (0x400 ≤ off ∧ off < 0x1800)) := by
  have hmap := regAt_isSome_iff off
  unfold access
  split
  · simp only [reduceCtorEq, exists_false, false_iff]; omega
  · split
    · simp only [reduceCtorEq, exists_false, false_iff]; omega
    · split
      · next reg heq =>
        have := hmap.mp ⟨reg, heq⟩
        simp only [Except.ok.injEq, exists_eq', true_iff]
        omega
      · next heq =>
        rw [heq] at hmap
        simp only [reduceCtorEq, exists_false, false_iff] at hmap ⊢
        omega

/-- Inside the register space, an access that is not legal is a bus error (R74). -/
theorem access_error {width off : Nat} (hoff : off < 0x2000) {f : Fault}
    (h : access width off = .error f) : f = .busError off := by
  unfold access at h
  rw [if_neg (by omega)] at h
  split at h
  · cases h; rfl
  · split at h <;> cases h; rfl

/-- The offset of a register names that register (R38). -/
theorem regAt_offset_word (x : Window) {i : Nat} (hi : i < 256) :
    regAt (x.base + 4 * i) = some (.word x i) := by
  generalize hoff : x.base + 4 * i = off
  have hbase : x.base = 0x400 ∧ x = .a ∨ x.base = 0x800 ∧ x = .d ∨ x.base = 0xC00 ∧ x = .n ∨
      x.base = 0x1000 ∧ x = .result ∨ x.base = 0x1400 ∧ x = .witness := by
    cases x <;> simp [Window.base]
  have hi' : i = (off - x.base) / 4 := by omega
  unfold regAt
  rcases hbase with ⟨hb, hx⟩ | ⟨hb, hx⟩ | ⟨hb, hx⟩ | ⟨hb, hx⟩ | ⟨hb, hx⟩ <;> rw [hb] at hoff hi' <;>
    subst hx hi'
  all_goals
    repeat' split
    all_goals first
      | rfl
      | (exfalso; omega)

/-- Reading or writing word `i` of a window reaches that word. -/
theorem access_word (x : Window) {i : Nat} (hi : i < 256) :
    access 4 (x.base + 4 * i) = .ok (.word x i) := by
  have hb : x.base + 4 * i < 0x2000 ∧ (x.base + 4 * i) % 4 = 0 := by
    cases x <;> simp only [Window.base] <;> omega
  unfold access
  rw [if_neg (by omega), if_neg (by omega), regAt_offset_word x hi]

/-- A register's offset is the only one that names it, and a window has 256 words (R31, R38). -/
theorem regAt_offset {off : Nat} {reg : Reg} (halign : off % 4 = 0) (h : regAt off = some reg) :
    off = reg.offset ∧ ∀ x i, reg = .word x i → i < 256 := by
  by_cases hctrl : off < 0x024
  · have hoff : off = 0x000 ∨ off = 0x004 ∨ off = 0x008 ∨ off = 0x00C ∨ off = 0x010 ∨ off = 0x014 ∨
        off = 0x018 ∨ off = 0x01C ∨ off = 0x020 := by omega
    rcases hoff with rfl | rfl | rfl | rfl | rfl | rfl | rfl | rfl | rfl <;> cases h <;>
      exact ⟨rfl, nofun⟩
  · unfold regAt at h
    rw [if_neg hctrl] at h
    repeat' split at h
    all_goals cases h
    all_goals
      refine ⟨?_, fun x i hw => ?_⟩
      · simp only [Reg.offset, Window.base]
        omega
      · cases hw
        omega

/-- A legal access is to the offset of the register it reaches. -/
theorem access_offset {width off : Nat} {reg : Reg} (h : access width off = .ok reg) :
    off = reg.offset ∧ ∀ x i, reg = .word x i → i < 256 := by
  have halign : off % 4 = 0 := ((access_ok_iff width off).mp ⟨reg, h⟩).2.1
  unfold access at h
  repeat' split at h
  all_goals first
    | (cases h
       exact regAt_offset halign ‹_›)
    | cases h

/-- What a write to CMD can do (R93). -/
theorem writeCmd_cases {x : Word} {s t : State} (h : writeCmd x s = .next t) :
    (x = 1 ∧ exec .powmod s = .next t) ∨ (x = 2 ∧ exec .mrTest s = .next t) ∨
      (x = 3 ∧ exec .mrTrial s = .next t) ∨
      (t = { s with block := s.block.submit (some .illegalCmd) s.block }) := by
  unfold writeCmd at h
  split at h
  · next i hi =>
    have hword : ∀ c : Nat, ¬ x.extractLsb' 8 24 ≠ 0 → (x.extractLsb' 0 8).toNat = c →
        x = BitVec.ofNat 32 c := by
      intro c hz hc
      have h0 : (x.extractLsb' 8 24).toNat = 0 := by
        have : x.extractLsb' 8 24 = 0 := by simpa using hz
        rw [this]; rfl
      simp only [BitVec.extractLsb'_toNat, Nat.shiftRight_eq_div_pow] at h0 hc
      have := x.isLt
      apply BitVec.eq_of_toNat_eq
      rw [BitVec.toNat_ofNat]
      omega
    unfold decodeCmd at hi
    split at hi
    · cases hi
    · next hz =>
      split at hi
      · next hc => cases hi; exact .inl ⟨hword 1 hz hc, h⟩
      · next hc => cases hi; exact .inr (.inl ⟨hword 2 hz hc, h⟩)
      · next hc => cases hi; exact .inr (.inr (.inl ⟨hword 3 hz hc, h⟩))
      · cases hi
  · cases h; exact .inr (.inr (.inr rfl))

/-- What a write to CTRL can do (R183). -/
theorem writeCtrl_cases {x : Word} {s t : State} (h : writeCtrl x s = .next t) :
    (x.getLsbD 2 = true ∧ t = s.resetBlock) ∨
      (x.getLsbD 2 = false ∧ x.getLsbD 1 = true ∧
        t = { s with block := (s.block.setIrqEn (x.getLsbD 0)).abort }) ∨
      (x.getLsbD 2 = false ∧ x.getLsbD 1 = false ∧
        t = { s with block := s.block.setIrqEn (x.getLsbD 0) }) := by
  unfold writeCtrl decodeCtrl at h
  cases h2 : x.getLsbD 2
  · cases h1 : x.getLsbD 1
    · simp only [h2, h1, Bool.false_eq_true, if_false] at h
      cases h
      exact .inr (.inr ⟨rfl, rfl, rfl⟩)
    · simp only [h2, h1, Bool.false_eq_true, if_false, if_true] at h
      cases h
      exact .inr (.inl ⟨rfl, rfl, rfl⟩)
  · simp only [h2, if_true] at h
    cases h
    exact .inl ⟨rfl, rfl⟩

/-- A write of any register is a next state: no legal write stops the run. -/
theorem writeReg_next (reg : Reg) (x : Word) (s : State) : ∃ t, writeReg reg x s = .next t := by
  cases reg <;> simp only [writeReg, writeCmd, writeCtrl]
  all_goals first
    | exact ⟨_, rfl⟩
    | (split
       · exact exec_next _ s
       · exact ⟨_, rfl⟩)

/-- Everything a host write can do (R181). -/
theorem writeReg_cases {reg : Reg} {x : Word} {s t : State} (h : writeReg reg x s = .next t) :
    t = s ∨
      (reg = .ctrl ∧ writeCtrl x s = .next t) ∨
      (reg = .status ∧ t = { s with block := s.block.clearStatus x }) ∨
      (reg = .cmd ∧ writeCmd x s = .next t) ∨
      (reg = .iter ∧ t = { s with block := { s.block with iter := x } }) ∨
      (∃ y i, reg = .word y i ∧
        t = { s with block := s.block.writeWindow s.config.limbs y i x }) := by
  cases reg <;> simp only [writeReg] at h
  case ctrl => exact .inr (.inl ⟨rfl, h⟩)
  case status => cases h; exact .inr (.inr (.inl ⟨rfl, rfl⟩))
  case cmd => exact .inr (.inr (.inr (.inl ⟨rfl, h⟩)))
  case iter => cases h; exact .inr (.inr (.inr (.inr (.inl ⟨rfl, rfl⟩))))
  case word y i => cases h; exact .inr (.inr (.inr (.inr (.inr ⟨y, i, rfl, rfl⟩))))
  all_goals (cases h; exact .inl rfl)

/-! A write of a window's word changes that operand window alone (R181). -/

section WriteWindow

variable (limbs : Nat) (x : Window) (i : Nat) (val : Word) (k : Block)

@[simp] theorem Block.writeWindow_irqEn : (k.writeWindow limbs x i val).irqEn = k.irqEn := by
  cases x <;> rfl
@[simp] theorem Block.writeWindow_done : (k.writeWindow limbs x i val).done = k.done := by
  cases x <;> rfl
@[simp] theorem Block.writeWindow_ovr : (k.writeWindow limbs x i val).ovr = k.ovr := by
  cases x <;> rfl
@[simp] theorem Block.writeWindow_errCode : (k.writeWindow limbs x i val).errCode = k.errCode := by
  cases x <;> rfl
@[simp] theorem Block.writeWindow_iter : (k.writeWindow limbs x i val).iter = k.iter := by
  cases x <;> rfl
@[simp] theorem Block.writeWindow_sValue : (k.writeWindow limbs x i val).sValue = k.sValue := by
  cases x <;> rfl
@[simp] theorem Block.writeWindow_trialCount : (k.writeWindow limbs x i val).trialCount = k.trialCount := by
  cases x <;> rfl
@[simp] theorem Block.writeWindow_drawCount : (k.writeWindow limbs x i val).drawCount = k.drawCount := by
  cases x <;> rfl
@[simp] theorem Block.writeWindow_result : (k.writeWindow limbs x i val).result = k.result := by
  cases x <;> rfl
@[simp] theorem Block.writeWindow_witness : (k.writeWindow limbs x i val).witness = k.witness := by
  cases x <;> rfl
@[simp] theorem Block.writeWindow_work : (k.writeWindow limbs x i val).work = k.work := by
  cases x <;> rfl
@[simp] theorem Block.writeWindow_st : (k.writeWindow limbs x i val).st = k.st := by
  cases x <;> rfl
@[simp] theorem Block.writeWindow_rndPending : (k.writeWindow limbs x i val).rndPending = k.rndPending := by
  cases x <;> rfl
@[simp] theorem Block.writeWindow_rndBound : (k.writeWindow limbs x i val).rndBound = k.rndBound := by
  cases x <;> rfl

end WriteWindow

/-- What a host write of `val` to a register can do to the block, SRST apart (R93, R181, R183, R187). -/
inductive Block.HostMove (limbs : Nat) (val : Word) (k : Block) : Reg → Block → Prop
  /-- A read-only register: nothing. -/
  | ignored (reg : Reg) : HostMove limbs val k reg k
  /-- STATUS (R187). -/
  | status : HostMove limbs val k .status (k.clearStatus val)
  /-- ITER (R181). -/
  | iter : HostMove limbs val k .iter { k with iter := val }
  /-- A word of a window (R181). -/
  | word (x : Window) (i : Nat) : HostMove limbs val k (.word x i) (k.writeWindow limbs x i val)
  /-- CTRL without an action, or ABORT while idle (R183, R184). -/
  | irqEn : HostMove limbs val k .ctrl (k.setIrqEn (val.getLsbD 0))
  /-- ABORT of a running command (R184). -/
  | abort (hst : k.st ≠ .idle) :
      HostMove limbs val k .ctrl ((k.setIrqEn (val.getLsbD 0)).fail .aborted)
  /-- CMD while a command runs (R94). -/
  | overrun (hst : k.st ≠ .idle) : HostMove limbs val k .cmd { k with ovr := true }
  /-- A submission refused (R97, R118, R150). -/
  | refused (hst : k.st = .idle) (c : ErrCode) (hc : c ≠ .noError) :
      HostMove limbs val k .cmd (k.fail c)
  /-- POWMOD accepted (R112). -/
  | powmod (hst : k.st = .idle) (hn : win k.winN ≠ 0) : HostMove limbs val k .cmd k.startPowmod
  /-- MR_TEST accepted (R133). -/
  | mrTest (hst : k.st = .idle) (hi : k.iter ≠ 0#32) : HostMove limbs val k .cmd k.startMrTest
  /-- MR_TRIAL accepted (R134). -/
  | mrTrial (hst : k.st = .idle) : HostMove limbs val k .cmd k.startMrTrial

/-- A host write is SRST, or changes the block alone by a `HostMove`. -/
theorem writeReg_move {reg : Reg} {x : Word} {s t : State} (h : writeReg reg x s = .next t) :
    (reg = .ctrl ∧ x.getLsbD 2 = true ∧ t = s.resetBlock) ∨
      ∃ k, Block.HostMove s.config.limbs x s.block reg k ∧ t = { s with block := k } := by
  rcases writeReg_cases h with rfl | ⟨rfl, h⟩ | ⟨rfl, rfl⟩ | ⟨rfl, h⟩ | ⟨rfl, rfl⟩ | ⟨y, i, rfl, rfl⟩
  · exact .inr ⟨_, .ignored reg, rfl⟩
  · rcases writeCtrl_cases h with ⟨h2, rfl⟩ | ⟨-, -, rfl⟩ | ⟨-, -, rfl⟩
    · exact .inl ⟨rfl, h2, rfl⟩
    · rcases (s.block.setIrqEn (x.getLsbD 0)).abort_cases with ⟨hst, ha⟩ | ⟨-, ha⟩
      · exact .inr ⟨_, .abort (by simpa using hst), by rw [ha]⟩
      · exact .inr ⟨_, .irqEn, by rw [ha]⟩
    · exact .inr ⟨_, .irqEn, rfl⟩
  · exact .inr ⟨_, .status, rfl⟩
  · rcases writeCmd_cases h with ⟨-, h⟩ | ⟨-, h⟩ | ⟨-, h⟩ | rfl
    · simp only [exec, execPowmod, Host.Outcome.next.injEq] at h
      subst h
      refine .inr ⟨_, ?_, rfl⟩
      by_cases hst : s.block.st = .idle
      · by_cases hn : win s.block.winN = 0
        · rw [if_pos hn, Block.submit_error hst]
          exact .refused hst _ (by decide)
        · rw [if_neg hn, Block.submit_started hst]
          exact .powmod hst hn
      · rw [Block.submit_busy hst]
        exact .overrun hst
    · simp only [exec, execMrTest, Host.Outcome.next.injEq] at h
      subst h
      refine .inr ⟨_, ?_, rfl⟩
      by_cases hst : s.block.st = .idle
      · by_cases hi : s.block.iter = 0#32
        · rw [if_pos hi, Block.submit_error hst]
          exact .refused hst _ (by decide)
        · rw [if_neg hi, Block.submit_started hst]
          exact .mrTest hst hi
      · rw [Block.submit_busy hst]
        exact .overrun hst
    · simp only [exec, execMrTrial, Host.Outcome.next.injEq] at h
      subst h
      refine .inr ⟨_, ?_, rfl⟩
      by_cases hst : s.block.st = .idle
      · rw [Block.submit_started hst]
        exact .mrTrial hst
      · rw [Block.submit_busy hst]
        exact .overrun hst
    · refine .inr ⟨_, ?_, rfl⟩
      by_cases hst : s.block.st = .idle
      · rw [Block.submit_error hst]
        exact .refused hst _ (by decide)
      · rw [Block.submit_busy hst]
        exact .overrun hst
  · exact .inr ⟨_, .iter, rfl⟩
  · exact .inr ⟨_, .word y i, rfl⟩

/-- A host write changes the block and, for SRST, the free-value counter, nothing else. -/
theorem writeReg_environment {reg : Reg} {x : Word} {s t : State} (h : writeReg reg x s = .next t) :
    t.config = s.config ∧ t.program = s.program ∧ t.schedule = s.schedule ∧
      t.answers = s.answers ∧ t.received = s.received := by
  rcases writeReg_move h with ⟨-, -, rfl⟩ | ⟨k, -, rfl⟩ <;> exact ⟨rfl, rfl, rfl, rfl, rfl⟩

/-- Everything a host step can do (R98, R180, R181): a read leaves the block alone, a write is
`writeReg`. -/
theorem hostStep_cases {op : HostOp} {s t : State} (h : hostStep op s = .next t) :
    (t.block = s.block ∧ t.config = s.config ∧ t.schedule = s.schedule ∧ t.answers = s.answers ∧
        t.freeCount = s.freeCount ∧ (∃ v, t.received = v :: s.received) ∧
        (t.program = s.program ∨ t.program = op :: s.program)) ∨
      (∃ off val reg, op = .wr 4 off val ∧ access 4 off = .ok reg ∧ writeReg reg val s = .next t) := by
  cases op with
  | rd width off =>
    simp only [hostStep] at h
    split at h
    · cases h; exact .inl ⟨rfl, rfl, rfl, rfl, rfl, ⟨_, rfl⟩, .inl rfl⟩
    · cases h
  | wr width off val =>
    simp only [hostStep] at h
    split at h
    · next reg hacc =>
      have hw : width = 4 := ((access_ok_iff width off).mp ⟨reg, hacc⟩).1
      subst hw
      exact .inr ⟨off, val, reg, rfl, hacc, h⟩
    · cases h
  | poll off mask val =>
    simp only [hostStep] at h
    split at h
    · split at h
      · cases h; exact .inl ⟨rfl, rfl, rfl, rfl, rfl, ⟨_, rfl⟩, .inl rfl⟩
      · cases h; exact .inl ⟨rfl, rfl, rfl, rfl, rfl, ⟨_, rfl⟩, .inr rfl⟩
    · cases h

end Sys2Proof.Machine
end

