-- ==== Sys2Proof/Laws/Operands.lean ====
section
/-! SUPPORT. What the operand functions compute: a window's value and its limbs (R31), reading and
writing one limb (R37), the multiplier (R111), the saturating counter (R143), and one iteration of
square-and-multiply (R113). -/

namespace Sys2Proof.Machine

/-- A window's value fits its limbs. -/
theorem win_lt (ws : List Word) : win ws < 2 ^ (32 * ws.length) := by
  induction ws with
  | nil => simp [win]
  | cons x xs ih =>
    have hx : x.toNat < 2 ^ 32 := x.isLt
    have hpow : 2 ^ (32 * (xs.length + 1)) = 2 ^ 32 * 2 ^ (32 * xs.length) := by
      rw [← Nat.pow_add]; congr 1; omega
    simp only [win, List.length_cons, hpow]
    nlinarith

@[simp] theorem toLimbs_length (limbs v : Nat) : (toLimbs limbs v).length = limbs := by
  induction limbs generalizing v with
  | zero => rfl
  | succ limbs ih => simp [toLimbs, ih]

/-- The limbs of `v` have the value `v`, cut to the window's width. -/
theorem win_toLimbs (limbs v : Nat) : win (toLimbs limbs v) = v % 2 ^ (32 * limbs) := by
  induction limbs generalizing v with
  | zero => simp [win, toLimbs, Nat.mod_one]
  | succ limbs ih =>
    have hpow : 2 ^ (32 * (limbs + 1)) = 2 ^ 32 * 2 ^ (32 * limbs) := by
      rw [← Nat.pow_add]; congr 1; omega
    rw [hpow, Nat.mod_mul]
    simp [win, toLimbs, ih]

/-- The limbs of a window's value are the window's limbs. -/
theorem toLimbs_win (ws : List Word) : toLimbs ws.length (win ws) = ws := by
  induction ws with
  | nil => rfl
  | cons x xs ih =>
    have hx : x.toNat < 2 ^ 32 := x.isLt
    have hdiv : (x.toNat + 2 ^ 32 * win xs) / 2 ^ 32 = win xs := by omega
    have hofNat : BitVec.ofNat 32 (x.toNat + 2 ^ 32 * win xs) = x := by
      apply BitVec.eq_of_toNat_eq
      rw [BitVec.toNat_ofNat]
      omega
    simp only [List.length_cons, toLimbs, win, hdiv, ih, hofNat]

/-- Limb `i` of a value is its bits `[32i+31:32i]` (R72). -/
theorem toLimbs_getD (limbs v i : Nat) (hi : i < limbs) :
    (toLimbs limbs v).getD i 0 = BitVec.ofNat 32 (v / 2 ^ (32 * i)) := by
  induction limbs generalizing v i with
  | zero => omega
  | succ limbs ih =>
    cases i with
    | zero => simp [toLimbs]
    | succ i =>
      have hpow : 2 ^ (32 * (i + 1)) = 2 ^ 32 * 2 ^ (32 * i) := by
        rw [← Nat.pow_add]; congr 1; omega
      simp only [toLimbs, List.getD_cons_succ]
      rw [ih (v / 2 ^ 32) i (by omega), Nat.div_div_eq_div_mul, hpow]

theorem win_replicate_zero (limbs : Nat) : win (List.replicate limbs 0) = 0 := by
  induction limbs with
  | zero => rfl
  | succ limbs ih =>
    simp only [List.replicate_succ, win, ih]
    rfl

theorem toLimbs_zero (limbs : Nat) : toLimbs limbs 0 = List.replicate limbs 0 := by
  induction limbs with
  | zero => rfl
  | succ limbs ih => simp [toLimbs, List.replicate_succ, ih]

@[simp] theorem limbWrite_length (limbs : Nat) (ws : List Word) (i : Nat) (x : Word) :
    (limbWrite limbs ws i x).length = ws.length := by
  unfold limbWrite
  split <;> simp

/-- A word below `L` reads back what was written to it. -/
theorem limbRead_limbWrite_same {limbs i : Nat} {ws : List Word} (x : Word) (hlen : ws.length = limbs)
    (hi : i < limbs) : limbRead limbs (limbWrite limbs ws i x) i = x := by
  have : i < ws.length := by omega
  simp [limbRead, limbWrite, hi, List.getD, this]

/-- A write of one word leaves every other word of the window alone. -/
theorem limbRead_limbWrite_other (limbs : Nat) (ws : List Word) (x : Word) {i h : Nat} (hne : h ≠ i) :
    limbRead limbs (limbWrite limbs ws i x) h = limbRead limbs ws h := by
  unfold limbRead limbWrite
  split <;> simp only [List.getD]
  split
  · rw [List.getElem?_set_ne (Ne.symm hne)]
  · rfl

/-- A word at `L` or above reads 0 (R37). -/
theorem limbRead_above (limbs : Nat) (ws : List Word) {i : Nat} (hi : limbs ≤ i) :
    limbRead limbs ws i = 0 := by
  simp [limbRead, Nat.not_lt.mpr hi]

/-- A write at `L` or above is ignored (R37). -/
theorem limbWrite_above (limbs : Nat) (ws : List Word) (x : Word) {i : Nat} (hi : limbs ≤ i) :
    limbWrite limbs ws i x = ws := by
  simp [limbWrite, Nat.not_lt.mpr hi]

/-- The multiplier's result is below the modulus (R111, R120). -/
theorem mulmod_lt (x y : Nat) {n : Nat} (hn : 0 < n) : mulmod x y n < n := Nat.mod_lt _ hn

/-- `draws` saturates (R143). -/
theorem satIncr_toNat (d : BitVec 32) : (satIncr d).toNat = min (d.toNat + 1) 0xFFFFFFFF := by
  unfold satIncr
  split
  · next h => subst h; decide
  · next h =>
    have hne : d.toNat ≠ 0xFFFFFFFF := fun hd => h (BitVec.eq_of_toNat_eq (by simpa using hd))
    have hlt := d.isLt
    have hone : (1 : BitVec 32).toNat = 1 := rfl
    rw [BitVec.toNat_add, hone]
    omega

/-- One iteration keeps `v * b^e mod n` (R115). -/
theorem Working.iterate_power (k : Working) :
    k.iterate.v * k.iterate.b ^ k.iterate.e % k.iterate.n = k.v * k.b ^ k.e % k.n := by
  have hsquare : (k.b * k.b % k.n) ^ (k.e / 2) ≡ (k.b * k.b) ^ (k.e / 2) [MOD k.n] :=
    (Nat.mod_modEq _ _).pow _
  have hexp : k.b ^ k.e = k.b ^ (k.e % 2) * (k.b * k.b) ^ (k.e / 2) := by
    rw [← pow_two, ← pow_mul, ← pow_add]
    congr 1
    omega
  show (if k.e % 2 = 1 then mulmod k.v k.b k.n else k.v) * (mulmod k.b k.b k.n) ^ (k.e / 2) % k.n = _
  unfold mulmod
  rw [hexp]
  by_cases hodd : k.e % 2 = 1
  · rw [if_pos hodd, hodd, pow_one, ← mul_assoc]
    exact (Nat.mod_modEq _ _).mul hsquare
  · have heven : k.e % 2 = 0 := by omega
    rw [if_neg hodd, heven, pow_zero, one_mul]
    exact (Nat.ModEq.refl _).mul hsquare

/-- One iteration keeps the accumulator and the base below the modulus (R115). -/
theorem Working.iterate_lt {k : Working} (hn : 0 < k.n) (hv : k.v < k.n) :
    k.iterate.v < k.n ∧ k.iterate.b < k.n := by
  refine ⟨?_, Nat.mod_lt _ hn⟩
  show (if k.e % 2 = 1 then mulmod k.v k.b k.n else k.v) < k.n
  split
  · exact Nat.mod_lt _ hn
  · exact hv

end Sys2Proof.Machine
end

