-- ==== Sys2Proof/Laws/PerInstr.lean ====
section
/-! SUPPORT. Statements made per instruction. -/

namespace Sys2Proof.Laws.TableRow

/-- The mask, match and register of an instruction's row of spec/opcode_table.json. -/
def row : Instr → Word × Word × Nat
  | .powmod => (0xFFFFFFFF, 0x00000001, 0x010)
  | .mrTest => (0xFFFFFFFF, 0x00000002, 0x010)
  | .mrTrial => (0xFFFFFFFF, 0x00000003, 0x010)
  | .abort _ _ => (0x00000006, 0x00000002, 0x008)
  | .srst _ _ _ => (0x00000004, 0x00000004, 0x008)

/-- An instruction's encoding is a write to its row's register whose word matches its row. -/
def Statement (i : Instr) : Prop :=
  (encode i).2 &&& (row i).1 = (row i).2.1 ∧ (encode i).1 = (row i).2.2

theorem powmod : Statement .powmod := ⟨by decide, rfl⟩

theorem mrTest : Statement .mrTest := ⟨by decide, rfl⟩

theorem mrTrial : Statement .mrTrial := ⟨by decide, rfl⟩

/-- Bits 2 and 1 of the ABORT word lie below the ignored bits. -/
theorem abort (irqEn : Bool) (ignored : BitVec 29) : Statement (.abort irqEn ignored) := by
  refine ⟨?_, rfl⟩
  show ignored ++ 0#1 ++ 1#1 ++ BitVec.ofBool irqEn &&& 6#32 = 2#32
  apply BitVec.eq_of_getLsbD_eq
  intro j hj
  simp only [BitVec.getLsbD_and, BitVec.getLsbD_append]
  interval_cases j <;> simp

/-- Bit 2 of the SRST word lies below the ignored bits. -/
theorem srst (irqEn abortBit : Bool) (ignored : BitVec 29) :
    Statement (.srst irqEn abortBit ignored) := by
  refine ⟨?_, rfl⟩
  show ignored ++ 1#1 ++ BitVec.ofBool abortBit ++ BitVec.ofBool irqEn &&& 4#32 = 4#32
  apply BitVec.eq_of_getLsbD_eq
  intro j hj
  simp only [BitVec.getLsbD_and, BitVec.getLsbD_append]
  interval_cases j <;> simp

end Sys2Proof.Laws.TableRow
end

