-- ==== Sys2Proof/Laws/Step.lean ====
section
/-! SUPPORT. Everything one step of the run can do, once; what an instruction's step is. -/

namespace Sys2Proof.Machine

/-- The engine's step depends on the configuration, the block and the answers alone. -/
theorem State.engineStep_congr (s : State) (program : List HostOp) (schedule : List Turn) :
    { s with program := program, schedule := schedule }.engineStep =
      s.engineStep.map fun t => { t with program := program, schedule := schedule } := by
  unfold State.engineStep
  split <;> simp_all [Function.comp_def]

/-- The host's turn: no line left, a read, or a write (R70). -/
theorem hostTurn_cases {s t : State} (h : hostTurn s = .next t) :
    t = s ∨
      (t.block = s.block ∧ t.config = s.config ∧ t.answers = s.answers ∧ t.freeCount = s.freeCount) ∨
      (∃ off val ops reg, s.program = .wr 4 off val :: ops ∧ access 4 off = .ok reg ∧
        writeReg reg val { s with program := ops } = .next t) := by
  unfold hostTurn at h
  split at h
  · cases h; exact .inl rfl
  · next op ops hp =>
    rcases hostStep_cases h with ⟨hb, hc, -, ha, hf, -, -⟩ | ⟨off, val, reg, rfl, hacc, hw⟩
    · exact .inr (.inl ⟨hb, hc, ha, hf⟩)
    · exact .inr (.inr ⟨off, val, ops, reg, hp, hacc, hw⟩)

/-- The host's turn as a move of the block. -/
theorem hostTurn_move {s t : State} (h : hostTurn s = .next t) :
    (t.block = s.resetBlock.block ∧ t.config = s.config ∧ t.freeCount = s.freeCount + 1) ∨
      (t.block = s.block ∧ t.config = s.config ∧ t.freeCount = s.freeCount) ∨
      (∃ off val ops reg, s.program = .wr 4 off val :: ops ∧ t.program = ops ∧
        access 4 off = .ok reg ∧ Block.HostMove s.config.limbs val s.block reg t.block ∧
        t.config = s.config ∧ t.freeCount = s.freeCount) := by
  rcases hostTurn_cases h with rfl | ⟨hb, hc, -, hf⟩ | ⟨off, val, ops, reg, hp, hacc, hw⟩
  · exact .inr (.inl ⟨rfl, rfl, rfl⟩)
  · exact .inr (.inl ⟨hb, hc, hf⟩)
  · rcases writeReg_move hw with ⟨-, -, rfl⟩ | ⟨k, hk, rfl⟩
    · exact .inl ⟨rfl, rfl, rfl⟩
    · exact .inr (.inr ⟨off, val, ops, reg, hp, rfl, hacc, hk, rfl, rfl⟩)

/-- The host's turn consumes no random answer. -/
theorem hostTurn_answers {s t : State} (h : hostTurn s = .next t) : t.answers = s.answers := by
  rcases hostTurn_cases h with rfl | ⟨-, -, ha, -⟩ | ⟨off, val, ops, reg, -, -, hw⟩
  · rfl
  · exact ha
  · exact (writeReg_environment hw).2.2.2.1

/-- Everything a step can do: an engine step, a reset, a step that leaves the block alone, or a host
write. -/
theorem step_cases {s t : State} (h : step s = .next t) :
    (Block.EngineMove s.config.limbs s.block t.block ∧ t.config = s.config ∧
        t.freeCount = s.freeCount) ∨
      (t.block = s.resetBlock.block ∧ t.config = s.config ∧ t.freeCount = s.freeCount + 1) ∨
      (t.block = s.block ∧ t.config = s.config ∧ t.freeCount = s.freeCount) ∨
      (∃ off val ops reg, s.program = .wr 4 off val :: ops ∧ t.program = ops ∧
        access 4 off = .ok reg ∧ Block.HostMove s.config.limbs val s.block reg t.block ∧
        t.config = s.config ∧ t.freeCount = s.freeCount) := by
  unfold step takeTurn at h
  split at h
  · rcases hostTurn_move h with h | h | h
    · exact .inr (.inl h)
    · exact .inr (.inr (.inl h))
    · exact .inr (.inr (.inr h))
  · next ts hs =>
    simp only [Host.Outcome.next.injEq] at h
    subst h
    have hcongr : ({ s with schedule := ts } : State).engineStep =
        s.engineStep.map fun t => { t with program := s.program, schedule := ts } :=
      State.engineStep_congr s s.program ts
    unfold engineTurn
    rw [hcongr]
    cases hs : s.engineStep with
    | none => exact .inr (.inr (.inl ⟨rfl, rfl, rfl⟩))
    | some u =>
      have hm := State.engineStep_move hs
      exact .inl ⟨hm.1, hm.2.1, hm.2.2.2.2.2⟩
  · next ts hs =>
    simp only [Host.Outcome.next.injEq] at h
    subst h
    exact .inr (.inl ⟨rfl, rfl, rfl⟩)
  · next hs =>
    split at h
    · next u hu =>
      simp only [Host.Outcome.next.injEq] at h
      subst h
      have hm := State.engineStep_move hu
      exact .inl ⟨hm.1, hm.2.1, hm.2.2.2.2.2⟩
    · exact .inr (hostTurn_move h)

/-- With no turn named and an engine step to take, that is the step (entry 5). -/
theorem step_engine {s t : State} (hs : s.schedule = []) (ht : s.engineStep = some t) :
    step s = .next t := by
  simp [step, takeTurn, hs, ht]

/-- With no turn named and nothing for the engine to do, the host moves (entry 5). -/
theorem step_host_idle {s : State} (hs : s.schedule = []) (ht : s.engineStep = none) :
    step s = hostTurn s := by
  simp [step, takeTurn, hs, ht]

/-- The host's named turn. -/
theorem step_host {s : State} {ts : List Turn} (hs : s.schedule = .host :: ts) :
    step s = hostTurn { s with schedule := ts } := by
  simp [step, takeTurn, hs]

/-- The host's named turn runs the next line of its program. -/
theorem step_host_line {s : State} {op : HostOp} {ops : List HostOp} {ts : List Turn}
    (hs : s.schedule = .host :: ts) (hp : s.program = op :: ops) :
    step s = hostStep op { s with program := ops, schedule := ts } := by
  simp [step_host hs, hostTurn, hp]

/-- `k` steps and then `m` steps are `k + m` steps. -/
theorem run_add (k m : Nat) {s t : State} (h : Sys2Proof.core.run k s = .next t) :
    Sys2Proof.core.run (k + m) s = Sys2Proof.core.run m t := by
  induction k generalizing s with
  | zero =>
    cases h
    rw [Nat.zero_add]
  | succ k ih =>
    rw [Nat.succ_add]
    simp only [Host.Core.run] at h ⊢
    split at h
    · next u hu => exact ih h
    · cases h
    · cases h

/-- One more step at the front of a run. -/
theorem run_succ {k : Nat} {s t : State} (h : step s = .next t) :
    Sys2Proof.core.run (k + 1) s = Sys2Proof.core.run k t := by
  have h' : Sys2Proof.core.step s = .next t := h
  simp only [Host.Core.run, h']

/-- `rd_res` names the value of the words it has just read, whatever was read earlier (R99). -/
theorem rdResValue_reverse_append (names earlier : List Word) :
    rdResValue names.length (names.reverse ++ earlier) = win names := by
  have htake : (names.reverse ++ earlier).take names.length = names.reverse := by
    rw [← List.length_reverse]
    exact List.take_left
  rw [rdResValue, htake, List.reverse_reverse]

@[simp] theorem ldFrom_length (x : Window) (i : Nat) (limbs : List Word) :
    (ldFrom x i limbs).length = limbs.length := by
  induction limbs generalizing i with
  | nil => rfl
  | cons limb rest ih => simp [ldFrom, ih]

@[simp] theorem rdRes_length (limbs : Nat) : (rdRes limbs).length = limbs := by simp [rdRes]

end Sys2Proof.Machine
end

