-- ==== Sys2Proof/Tests/Slice0.lean ====
section
/-! SUPPORT. The model's own tests: what the well-formedness checks refuse, words written out from the
spec's encodings, one-step tests whose expected values are the spec's vectors (spec/95_test_vectors.md,
named in each docstring), and for every statement with hypotheses a state that meets them together. -/

namespace Sys2Proof.Tests

open Sys2Proof Sys2Proof.Machine

/-! ## States -/

/-- Idle, from reset, with operands `a`, `d`, `n` and ITER, at `limbs` limbs. -/
def idleAt (limbs a d n iter : Nat) : State :=
  { State.resetWith { limbs := limbs, base := 0 } with
    block := { Block.reset limbs Working.zero 0 with
      winA := toLimbs limbs a
      winD := toLimbs limbs d
      winN := toLimbs limbs n
      iter := BitVec.ofNat 32 iter } }

/-- One limb, a command in sequencer state `st` with working registers `k`. -/
def running (st : SeqState) (k : Working) : State :=
  { idleAt 1 0 0 0 0 with
    block := { Block.reset 1 k 0 with st := st } }

/-- PM-01 running, after its acceptance: `4^13 mod 497`. -/
def pm01 : State := running .pmLoop { Working.zero with n := 497, b := 4, e := 13, v := 1 }

/-- POWMOD with its exponent used up: the last step of PM-22. -/
def pm01Last : State := running .pmLoop { Working.zero with n := 497, b := 151, e := 0, v := 445 }

/-- MR-15: MR_TEST of 561 waiting for a value. -/
def mr15 : State :=
  { running .mrDraw
      { Working.zero with op := .mrTest, n := 561, r := 35, s := 4, eff := 2 } with
    block := { Block.reset 1
        { Working.zero with op := .mrTest, n := 561, r := 35, s := 4, eff := 2 } 560 with
      st := .mrDraw, rndPending := true } }

/-- MR-15 with an answer to deliver. -/
def mr15Answer (u : Nat) : State := { mr15 with answers := [u] }

/-- A trial of the prime 13 with witness 5 (MT-20), its chain at `y_1 = 12`. -/
def mt20Next : State :=
  running .mrNext { Working.zero with
    op := .mrTrial, n := 13, r := 3, s := 2, y := 12, j := 2, wa := 5, w := 5, eff := 1, trials := 1,
    b := 5, v := 8 }

/-- `s` with a host write next, on the host's turn. -/
def hostWrites (off : Nat) (x : Word) (s : State) : State :=
  { s with program := [.wr 4 off x], schedule := [.host] }

/-! ## Well-formedness -/

/-- R6: no limb, or more than 256, is refused. -/
theorem test_limbs_out_of_range_refused :
    ¬Config.Legal { limbs := 0, base := 0 } ∧ ¬Config.Legal { limbs := 257, base := 0 } := by decide

/-- R7: a base that is no multiple of 0x2000 is refused. -/
theorem test_base_misaligned_refused : ¬Config.Legal { limbs := 1, base := 0x1000 } := by decide

/-- R73: two bytes of a word are no instruction. -/
theorem test_short_write_refused : decodeBytes 0x010 [0x01, 0x00] = .error .notOneWord := by rfl

/-- HA-12, HA-13, HA-08, HA-10: misaligned, narrow and unmapped accesses are refused. -/
theorem test_access_refused :
    access 4 0x002 = .error (.busError 0x002) ∧ access 1 0x000 = .error (.busError 0x000) ∧
      access 4 0x024 = .error (.busError 0x024) ∧ access 4 0x1800 = .error (.busError 0x1800) ∧
      access 4 0x2000 = .error (.outsideRegisterSpace 0x2000) := by
  refine ⟨rfl, rfl, rfl, rfl, rfl⟩

/-! ## Decoding: words written out bit by bit (R90, R91, R24) -/

theorem test_decode_powmod :
    decodeWrite 0x010 0b00000000000000000000000000000001 = .ok .powmod := by rfl

theorem test_decode_mrTest :
    decodeWrite 0x010 0b00000000000000000000000000000010 = .ok .mrTest := by rfl

theorem test_decode_mrTrial :
    decodeWrite 0x010 0b00000000000000000000000000000011 = .ok .mrTrial := by rfl

/-- CTRL: IRQ_EN is bit 0, ABORT bit 1, SRST bit 2, and bits 31:3 are ignored. -/
theorem test_decode_abort :
    decodeWrite 0x008 0b10000000000000000000000000001011 =
      .ok (.abort true 0b10000000000000000000000000001) := by rfl

theorem test_decode_srst :
    decodeWrite 0x008 0b00000000000000000000000000000110 = .ok (.srst false true 0) := by rfl

/-- DE-01, DE-02, DE-04: words CMD does not know. -/
theorem test_decode_illegal :
    decodeWrite 0x010 0x00000000 = .error .illegalCommand ∧
      decodeWrite 0x010 0x00000004 = .error .illegalCommand ∧
      decodeWrite 0x010 0x00000101 = .error .illegalCommand := by
  refine ⟨rfl, rfl, rfl⟩

/-- The table's words, and an illegal one. -/
theorem test_decodeTableWord :
    decodeTableWord 32 0x00000001 = some .powmod ∧ decodeTableWord 32 0x00000003 = some .mrTrial ∧
      decodeTableWord 32 0x0000000A = some (.abort false 1) ∧
      decodeTableWord 32 0x00000004 = some (.srst false false 0) ∧
      decodeTableWord 32 0x00000008 = none := by
  refine ⟨rfl, rfl, rfl, rfl, rfl⟩

/-! ## One step -/

/-- DE-11: acceptance of POWMOD clears DONE and ERR_CODE; STATUS reads 0x00010001. -/
theorem test_powmod_accepted_status :
    ∃ t, exec .powmod { idleAt 1 4 13 497 0 with
        block := (idleAt 1 4 13 497 0).block.fail .illegalCmd } = .next t ∧
      t.block.status = 0x00010001 := ⟨_, rfl, rfl⟩

/-- PM-22: the second iteration's `(v, b, e)`, from `(4, 16, 6)` to `(4, 256, 3)`. -/
theorem test_powmod_iteration :
    ∃ t, step (running .pmLoop { Working.zero with n := 497, b := 16, e := 6, v := 4 }) = .next t ∧
      t.block.work.v = 4 ∧ t.block.work.b = 256 ∧ t.block.work.e = 3 := ⟨_, rfl, rfl, rfl, rfl⟩

/-- DE-08: MR_TEST with ITER = 0 is refused even for the candidate 0. -/
theorem test_mrTest_iter_zero :
    ∃ t, exec .mrTest (idleAt 1 0 0 0 0) = .next t ∧ t.block.status = 0x00000306 := ⟨_, rfl, rfl⟩

/-- MR-01, step 9: the answer 1 is consumed and re-drawn, the request standing. -/
theorem test_mrTest_redraw :
    ∃ t, step (mr15Answer 1) = .next t ∧ t.block.work.draws = 1 ∧ t.block.status = 0x00050001 ∧
      t.block.rndReq = true := ⟨_, rfl, rfl, rfl, rfl⟩

/-- MT-13: the chain's squaring of 263 gives 166 and counts `j`. -/
theorem test_mrTrial_chain :
    ∃ t, step (running .mrChain { Working.zero with
        op := .mrTrial, n := 561, r := 35, s := 4, y := 263, j := 1, wa := 2, w := 2, eff := 1,
        trials := 1 }) = .next t ∧
      t.block.work.y = 166 ∧ t.block.work.j = 2 := ⟨_, rfl, rfl, rfl⟩

/-- MT-15: the witness `n - 1` is out of range. -/
theorem test_mrTrial_witness_range :
    ∃ t, step (running .mrNext { Working.zero with
        op := .mrTrial, n := 561, r := 35, s := 4, wa := 560, eff := 1 }) = .next t ∧
      t.block.status = 0x00000406 := ⟨_, rfl, rfl⟩

/-- CT-04: aborting MR-15 with IRQ_EN written 1. -/
theorem test_abort_waiting :
    ∃ t, step (hostWrites 0x008 0x3 mr15) = .next t ∧ t.block.status = 0x00000606 ∧
      t.block.irq = true ∧ t.block.rndReq = false := ⟨_, rfl, rfl, rfl, rfl⟩

/-- CT-05: ABORT while idle changes nothing. -/
theorem test_abort_idle :
    ∃ t, exec (.abort false 0) (idleAt 1 4 13 497 0) = .next t ∧
      t.block = (idleAt 1 4 13 497 0).block := ⟨_, rfl, rfl⟩

/-- CT-07: SRST wins over ABORT. -/
theorem test_srst_wins :
    ∃ t, step (hostWrites 0x008 0x6 mr15) = .next t ∧ t.block.status = 0 ∧ t.block.irq = false ∧
      t.block.rndReq = false := ⟨_, rfl, rfl, rfl, rfl⟩

/-- CT-11: bits 0, 2 and 31:4 of a STATUS write are ignored. -/
theorem test_status_write_ignored_bits :
    ∃ t, step (hostWrites 0x00C 0xFFFFFFF5
        { idleAt 1 0 0 0 0 with block := (idleAt 1 0 0 0 0).block.fail .modulusZero }) = .next t ∧
      t.block.status = 0x00000206 := ⟨_, rfl, rfl⟩

/-- HA-01, HA-05, HA-17: ID, a word above `L`, and limb order at `W = 64`. -/
theorem test_register_port :
    hostStep (.rd 4 0x000) State.reset =
        .next { State.reset with received := [0x504D5201] } ∧
      hostStep (.wr 4 0x404 0x5) State.reset = .next State.reset ∧
      win [0x89ABCDEF#32, 0x01234567#32] = 0x0123456789ABCDEF := by
  refine ⟨rfl, rfl, by decide⟩

/-- MR-17, R39: `eff = ITER - 1` at the largest ITER. -/
theorem test_mrTest_largest_iter :
    (idleAt 1 0 0 561 0xFFFFFFFF).block.startMrTest.work.eff = 0xFFFFFFFE := by rfl

/-! ## Witnesses: every statement's hypotheses are met -/

theorem witness_CommandWordsAreExactlyThree :
    (0x00000101 : Word) ≠ 0x00000001 ∧ (0x00000101 : Word) ≠ 0x00000002 ∧
      (0x00000101 : Word) ≠ 0x00000003 := by decide

theorem witness_DecodeOfEncode : (Instr.abort true 0x1FFFFFFF).wellFormed = true := by rfl

theorem witness_EncodeOfDecode :
    decodeWrite 0x008 0xFFFFFFFB = .ok (.abort true 0x1FFFFFFF) := by rfl

/-- A named host turn while a command runs; no named turn while idle. -/
theorem witness_StepRunsDecodedInstruction :
    (∃ s : State, s.program = [.wr 4 0x008 0x2] ∧ s.schedule = [.host] ∧ s.block.st ≠ .idle ∧
        decodeWrite 0x008 0x2 = .ok (.abort false 0)) ∧
      ∃ s : State, s.program = [.wr 4 0x010 0x1] ∧ s.schedule = [] ∧ s.engineStep = none ∧
        decodeWrite 0x010 0x1 = .ok .powmod :=
  ⟨⟨hostWrites 0x008 0x2 mr15, rfl, rfl, by decide, rfl⟩,
    ⟨{ idleAt 1 4 13 497 0 with program := [.wr 4 0x010 0x1] }, rfl, rfl, rfl, rfl⟩⟩

theorem witness_PlacedTableWordRuns : decodeTableWord 32 0x00000002 = some .mrTest := by rfl

theorem witness_ResetTableHolds :
    (0x00000004 : Word).getLsbD 2 = true ∧
      ({ mr15 with schedule := [.reset] } : State).schedule = .reset :: [] := by
  refine ⟨by decide, rfl⟩

theorem witness_ResetMeetsInvariant :
    Config.Legal { limbs := 1, base := 0 } ∧ Config.Legal { limbs := 256, base := 0x2000 } := by decide

theorem witness_PowmodAccepted :
    (idleAt 1 4 13 497 0).block.st = .idle ∧ win (idleAt 1 4 13 497 0).block.winN ≠ 0 := by decide

theorem witness_MrTestAccepted :
    (idleAt 1 0 0 561 1).block.st = .idle ∧ 1 ≤ (idleAt 1 0 0 561 1).block.iter.toNat := by decide

theorem witness_MrTrialAccepted : (idleAt 1 2 0 561 0).block.st = .idle := by rfl

theorem witness_PowmodModulusZero :
    (idleAt 1 4 13 0 0).block.st = .idle ∧ win (idleAt 1 4 13 0 0).block.winN = 0 := by decide

theorem witness_MrTestIterZero :
    (idleAt 1 0 0 7 0).block.st = .idle ∧ (idleAt 1 0 0 7 0).block.iter = 0 := by decide

/-- OVR set and then cleared: by a write to STATUS, and by the reset line. -/
theorem witness_BusyCommandOnlySetsStickyOvr :
    pm01.block.st ≠ .idle ∧
      (∃ s t : State, step s = .next t ∧ s.block.ovr = true ∧ t.block.ovr = false ∧
        s.program = [.wr 4 0x00C 0x8] ∧ t.program = []) ∧
      ∃ s t : State, step s = .next t ∧ s.block.ovr = true ∧ t.block.ovr = false ∧
        s.schedule = [.reset] :=
  ⟨by decide,
    ⟨hostWrites 0x00C 0x8 { pm01 with block := { pm01.block with ovr := true } }, _, rfl, rfl, rfl,
      rfl, rfl⟩,
    ⟨{ pm01 with block := { pm01.block with ovr := true }, schedule := [.reset] }, _, rfl, rfl, rfl,
      rfl⟩⟩

theorem witness_CommandSubmissionFrame :
    (∃ t, exec .powmod (idleAt 1 4 13 497 0) = .next t) ∧
      (∃ t, exec .mrTest (idleAt 1 0 0 561 3) = .next t) ∧
      ∃ t, exec .mrTrial (idleAt 1 2 0 561 0) = .next t := ⟨⟨_, rfl⟩, ⟨_, rfl⟩, ⟨_, rfl⟩⟩

theorem witness_AbortEffect :
    mr15.block.st ≠ .idle ∧ (idleAt 1 4 13 497 0).block.st = .idle ∧
      (∃ t, exec (.abort false 0) mr15 = .next t) ∧ 7 < effectiveAddress mr15.config 0x008 ∧
      effectiveAddress mr15.config 0x010 ≤ 16 :=
  ⟨by decide, rfl, ⟨_, rfl⟩, by decide, by decide⟩

/-- The interrupt rises when a command ends, and when it is enabled afterwards (CT-01). -/
theorem witness_InterruptRisesOnlyAtEnds :
    (∃ s t : State, step s = .next t ∧ s.block.irq = false ∧ t.block.irq = true ∧
        s.block.done = false) ∧
      ∃ s t : State, step s = .next t ∧ s.block.irq = false ∧ t.block.irq = true ∧
        s.block.irqEn = false :=
  ⟨⟨{ pm01Last with block := { pm01Last.block with irqEn := true } }, _, rfl, rfl, rfl, rfl⟩,
    ⟨hostWrites 0x008 0x1
        { idleAt 1 0 0 0 0 with block := { (idleAt 1 0 0 0 0).block with done := true } },
      _, rfl, rfl, rfl, rfl⟩⟩

/-- The read of every control register, and the last words of the first and the last window. -/
theorem witness_ReadReturnsRegister :
    access 4 0x000 = .ok .id ∧ access 4 0x004 = .ok .param ∧ access 4 0x008 = .ok .ctrl ∧
      access 4 0x00C = .ok .status ∧ access 4 0x010 = .ok .cmd ∧ access 4 0x014 = .ok .iter ∧
      access 4 0x018 = .ok .sValue ∧ access 4 0x01C = .ok .trialCount ∧
      access 4 0x020 = .ok .drawCount ∧ access 4 (0x400 + 4 * 0) = .ok (.word .a 0) ∧
      access 4 (0x400 + 4 * 255) = .ok (.word .a 255) ∧
      access 4 (0x800 + 4 * 255) = .ok (.word .d 255) ∧
      access 4 (0xC00 + 4 * 255) = .ok (.word .n 255) ∧
      access 4 (0x1000 + 4 * 255) = .ok (.word .result 255) ∧
      access 4 (0x1400 + 4 * 255) = .ok (.word .witness 255) := by
  refine ⟨rfl, rfl, rfl, rfl, rfl, rfl, rfl, rfl, rfl, rfl, rfl, rfl, rfl, rfl, rfl⟩

theorem witness_ReadsHaveNoSideEffects :
    (∃ t, hostStep (.rd 4 0x17FC) (idleAt 1 4 13 497 0) = .next t) ∧
      ∃ t, hostStep waitDone (idleAt 1 4 13 497 0) = .next t := ⟨⟨_, rfl⟩, ⟨_, rfl⟩⟩

/-- The same read for both clauses: STATUS of a running command matches `BUSY = 1` and not `DONE = 1`. -/
theorem witness_PollReadsUntilMatch :
    hostStep (.rd 4 0x00C) pm01 = .next { pm01 with received := 0x00010001 :: pm01.received } ∧
      (0x00010001 : Word) &&& 0x1 = 0x1 ∧ (0x00010001 : Word) &&& 0x2 ≠ 0x2 :=
  ⟨rfl, by decide, by decide⟩

/-- Word 0 is below `L = 1`, word 1 and word 255 are at or above it. -/
theorem witness_WriteStoresOperandsOnly :
    0 < (idleAt 1 4 13 497 0).config.limbs ∧ (idleAt 1 4 13 497 0).config.limbs ≤ 1 ∧
      (idleAt 1 4 13 497 0).config.limbs ≤ 255 := by decide

/-- Each ground for a bus error at the ends of its range, and accesses next to them that are legal. -/
theorem witness_BusErrorExactlyOnIllegalAccess :
    access 2 0x400 = .error (.busError 0x400) ∧ access 4 0x001 = .error (.busError 0x001) ∧
      access 4 0x024 = .error (.busError 0x024) ∧ access 4 0x3FC = .error (.busError 0x3FC) ∧
      access 4 0x1FFC = .error (.busError 0x1FFC) ∧ access 4 0x1FFF = .error (.busError 0x1FFF) ∧
      access 4 0x020 = .ok .drawCount ∧ access 4 0x17FC = .ok (.word .witness 255) := by
  refine ⟨rfl, rfl, rfl, rfl, rfl, rfl, rfl, rfl⟩

theorem witness_AccessOutsideRegisterSpaceStops :
    access 4 0x2000 = .error (.outsideRegisterSpace 0x2000) := by rfl

/-- The top limb of two, and the last byte of the last register. -/
theorem witness_LimbAndByteOrder :
    1 < ([0x89ABCDEF#32, 0x01234567#32] : List Word).length ∧
      access 4 0x17FC = .ok (.word .witness 255) ∧ (3 : Nat) < 4 := by
  refine ⟨by decide, rfl, by decide⟩

/-- `ld A` of the 64-bit operand of PM-20. -/
theorem witness_LdLoadsTheWindow :
    ∃ s : State, s.config.Legal ∧ (s.block.window .a).length = s.config.limbs ∧
      0x0123456789ABCDEF < 2 ^ s.config.width ∧
      s.program = ld s.config.limbs .a 0x0123456789ABCDEF ++ [] ∧
      s.schedule = List.replicate s.config.limbs .host ++ [] :=
  ⟨{ idleAt 2 0 0 0 0 with
      program := [.wr 4 0x400 0x89ABCDEF, .wr 4 0x404 0x01234567], schedule := [.host, .host] },
    by decide, rfl, by decide, by decide, rfl⟩

/-- `rd_res` of a two-limb RESULT (PM-20). -/
theorem witness_RdResReadsResult :
    ∃ s : State, s.config.Legal ∧ s.block.result.length = s.config.limbs ∧
      s.program = rdRes s.config.limbs ++ [] ∧
      s.schedule = List.replicate s.config.limbs .host ++ [] ∧
      s.block.result = [0x901A4710, 0xD3097250] :=
  ⟨{ idleAt 2 0 0 0 0 with
      block := { (idleAt 2 0 0 0 0).block with result := [0x901A4710, 0xD3097250] }
      program := [.rd 4 0x1000, .rd 4 0x1004]
      schedule := [.host, .host] },
    by decide, rfl, by decide, rfl, rfl⟩

/-- PM-20: the value of the two limbs read, the later one newest in `received`. -/
theorem test_rdRes_value : rdResValue 2 [0xD3097250, 0x901A4710, 0x7] = 0xD3097250901A4710 := by
  decide

/-- The windows `ld` takes. -/
theorem witness_PseudoInstructionsExpand :
    Window.a.base = 0x400 ∧ Window.d.base = 0x800 ∧ Window.n.base = 0xC00 := by decide

/-- The candidates 2, 3; 0, 1, 4; 6; 5: the ends of the ranges of MR_CHECK. -/
theorem witness_MrCheckStep :
    ∀ n : Nat, ∃ s : State, s.block.st = .mrCheck ∧ s.block.work.n = n ∧
      (n = 6 → 5 ≤ s.block.work.n ∧ s.block.work.n % 2 = 0) ∧
      (n = 5 → 5 ≤ s.block.work.n ∧ s.block.work.n % 2 = 1) :=
  fun n => ⟨running .mrCheck { Working.zero with op := .mrTrial, n := n, eff := 1 }, rfl, rfl,
    by rintro rfl; decide, by rintro rfl; decide⟩

theorem witness_MrDecompStep :
    (∃ s : State, s.block.st = .mrDecomp ∧ s.block.work.r % 2 = 0) ∧
      ∃ s : State, s.block.st = .mrDecomp ∧ s.block.work.r % 2 = 1 :=
  ⟨⟨running .mrDecomp { Working.zero with n := 561, r := 560 }, rfl, rfl⟩,
    ⟨running .mrDecomp { Working.zero with n := 561, r := 35, s := 4 }, rfl, rfl⟩⟩

/-- An iteration; the ends with `v = 1` and `v = n - 1` (MT-11, MT-14); the way to the chain (MT-13). -/
theorem witness_MrPowStep :
    (∃ s : State, s.block.st = .mrPow ∧ s.block.work.e ≠ 0) ∧
      (∃ s : State, s.block.st = .mrPow ∧ s.block.work.e = 0 ∧ s.block.work.v = 1) ∧
      (∃ s : State, s.block.st = .mrPow ∧ s.block.work.e = 0 ∧
        s.block.work.v = s.block.work.n - 1) ∧
      ∃ s : State, s.block.st = .mrPow ∧ s.block.work.e = 0 ∧ s.block.work.v ≠ 1 ∧
        s.block.work.v ≠ s.block.work.n - 1 :=
  ⟨⟨running .mrPow { Working.zero with n := 561, e := 35, v := 1, b := 2 }, rfl, by decide⟩,
    ⟨running .mrPow { Working.zero with n := 7, e := 0, v := 1 }, rfl, rfl, rfl⟩,
    ⟨running .mrPow { Working.zero with n := 561, e := 0, v := 560 }, rfl, rfl, rfl⟩,
    ⟨running .mrPow { Working.zero with n := 561, e := 0, v := 263 }, rfl, rfl, by decide,
      by decide⟩⟩

/-- The chain of MT-13 at 263 and at 67, which squares to 1; the chain of MT-12 at its end; a chain at
`n - 1` (MT-16). -/
theorem witness_MrChainStep :
    (∃ s : State, s.block.st = .mrChain ∧ s.block.work.j.toNat + 1 ≤ s.block.work.s.toNat ∧
        s.block.work.y ≠ s.block.work.n - 1 ∧
        s.block.work.y * s.block.work.y % s.block.work.n = 166) ∧
      (∃ s : State, s.block.st = .mrChain ∧ s.block.work.j.toNat + 1 ≤ s.block.work.s.toNat ∧
        s.block.work.y ≠ s.block.work.n - 1 ∧
        s.block.work.y * s.block.work.y % s.block.work.n = 1) ∧
      (∃ s : State, s.block.st = .mrChain ∧ s.block.work.s.toNat < s.block.work.j.toNat + 1 ∧
        s.block.work.y ≠ s.block.work.n - 1) ∧
      ∃ s : State, s.block.st = .mrChain ∧ s.block.work.y = s.block.work.n - 1 :=
  ⟨⟨running .mrChain { Working.zero with n := 561, s := 4, j := 1, y := 263 }, rfl, by decide,
      by decide, by decide⟩,
    ⟨running .mrChain { Working.zero with n := 561, s := 4, j := 3, y := 67 }, rfl, by decide,
      by decide, by decide⟩,
    ⟨running .mrChain { Working.zero with n := 9, s := 3, j := 3, y := 7 }, rfl, by decide,
      by decide⟩,
    ⟨running .mrChain { Working.zero with n := 25, s := 3, j := 2, y := 24 }, rfl, rfl⟩⟩

/-- The end of MT-20, and of MT-13 by the squaring that gives 1. -/
theorem witness_FinishMrWritesReadbacks :
    (∃ s t : State, s.engineStep = some t ∧ s.block.st ≠ .pmLoop ∧ t.block.st = .idle ∧
        t.block.errCode = .noError ∧ s.block.st = .mrNext) ∧
      ∃ s t : State, s.engineStep = some t ∧ s.block.st ≠ .pmLoop ∧ t.block.st = .idle ∧
        t.block.errCode = .noError ∧ s.block.st = .mrChain :=
  ⟨⟨mt20Next, _, rfl, by decide, rfl, rfl, rfl⟩,
    ⟨running .mrChain { Working.zero with n := 561, s := 4, j := 3, y := 67, trials := 1, w := 2 },
      _, rfl, by decide, rfl, rfl, rfl⟩⟩

theorem witness_PowmodIteration : pm01.block.st = .pmLoop ∧ pm01.block.work.e ≠ 0 := by decide

theorem witness_PowmodEnd : pm01Last.block.st = .pmLoop ∧ pm01Last.block.work.e = 0 := by decide

/-- `560 = 35 * 2^4` (MT-13). -/
theorem witness_DecompositionEnds :
    ∃ s : State, s.config.Legal ∧ s.block.st = .mrDecomp ∧
      s.block.work.n < 2 ^ s.config.width ∧ 5 ≤ s.block.work.n ∧ s.block.work.n % 2 = 1 ∧
      s.block.work.r = s.block.work.n - 1 ∧ s.block.work.s = 0 ∧
      s.block.work.n - 1 = 35 * 2 ^ 4 ∧ 35 % 2 = 1 :=
  ⟨running .mrDecomp { Working.zero with op := .mrTrial, n := 561, r := 560, eff := 1 },
    by decide, rfl, by decide, by decide, by decide, rfl, rfl, by decide, by decide⟩

/-- Every clause of the dispatch: the end, a witness below and above its range, the ends of the range, a
request. -/
theorem witness_TrialDispatch :
    (mt20Next.block.st = .mrNext ∧ mt20Next.block.work.trials = mt20Next.block.work.eff) ∧
      (∀ wa, wa = 1 ∨ wa = 12 → ∃ s : State, s.block.st = .mrNext ∧
        s.block.work.trials ≠ s.block.work.eff ∧ s.block.work.op = .mrTrial ∧
        s.block.work.wa = wa ∧ (s.block.work.wa < 2 ∨ s.block.work.n - 2 < s.block.work.wa)) ∧
      (∀ wa, wa = 2 ∨ wa = 11 → ∃ s : State, s.block.st = .mrNext ∧
        s.block.work.trials ≠ s.block.work.eff ∧ s.block.work.op = .mrTrial ∧
        s.block.work.wa = wa ∧ 2 ≤ s.block.work.wa ∧ s.block.work.wa ≤ s.block.work.n - 2) ∧
      ∃ s : State, s.block.st = .mrNext ∧ s.block.work.trials ≠ s.block.work.eff ∧
        s.block.work.op = .mrTest := by
  refine ⟨by decide, fun wa h => ?_, fun wa h => ?_, ?_⟩
  · refine ⟨running .mrNext { Working.zero with
      op := .mrTrial, n := 13, r := 3, s := 2, eff := 1, wa := wa }, rfl,
      show (0 : BitVec 32) ≠ 1 by decide, rfl, rfl, ?_⟩
    rcases h with rfl | rfl <;> decide
  · refine ⟨running .mrNext { Working.zero with
      op := .mrTrial, n := 13, r := 3, s := 2, eff := 1, wa := wa }, rfl,
      show (0 : BitVec 32) ≠ 1 by decide, rfl, rfl, ?_⟩
    rcases h with rfl | rfl <;> decide
  · exact ⟨running .mrNext { Working.zero with op := .mrTest, n := 13, r := 3, s := 2, eff := 1 },
      rfl, by decide, rfl⟩

/-- The ends of the three ranges of a delivered value: 560 and above, 0 and 1, 2 to 559. -/
theorem witness_RandomValueConsumed :
    ∀ u : Nat, (mr15Answer u).block.st = .mrDraw ∧ (mr15Answer u).answers = u :: [] ∧
      (u = 560 → (mr15Answer u).block.rndBound ≤ u) ∧
      (u = 1 → u < (mr15Answer u).block.rndBound ∧ u < 2) ∧
      (u = 2 ∨ u = 559 → u < (mr15Answer u).block.rndBound ∧ 2 ≤ u) := by
  intro u
  have hb : (mr15Answer u).block.rndBound = 560 := rfl
  refine ⟨rfl, rfl, ?_, ?_, ?_⟩ <;> rw [hb] <;> omega

theorem witness_EngineStepsUnlessIdleOrWaiting :
    (∃ t, pm01.engineStep = some t) ∧ (pm01.block.st ≠ .idle ∧ pm01.block.st ≠ .mrDraw) ∧
      mr15.engineStep = none ∧ ((mr15Answer 2).block.st = .mrDraw ∧ (mr15Answer 2).answers ≠ []) :=
  ⟨⟨_, rfl⟩, by decide, rfl, by decide⟩

/-- A state of a running command in which the invariant holds, and its step. -/
theorem inv_mt20Next : mt20Next.Inv := by
  refine ⟨by decide, fun x => by cases x <;> rfl, ?_, by decide, ?_, by decide, ?_⟩
  · refine ⟨?_, ?_, ?_, ?_, ?_, ?_, ?_, ?_⟩ <;> decide
  · unfold Block.StatusConsistent; decide
  · show mt20Next.block.work.Decomposed ∧ mt20Next.block.work.TrialBudget
    unfold Working.Decomposed Working.Candidate Working.TrialBudget
    decide

theorem witness_EveryStepKeepsInvariant :
    ∃ s t : State, s.Inv ∧ step s = .next t ∧ s.block.st ≠ t.block.st :=
  ⟨mt20Next, _, inv_mt20Next, rfl, by decide⟩

theorem witness_StatusStaysConsistent :
    ∃ s t : State, s.block.StatusConsistent ∧ step s = .next t ∧ t.block.done = true :=
  ⟨pm01Last, _, by unfold Block.StatusConsistent; decide, rfl, rfl⟩

/-- The last step of PM-01 writes RESULT. -/
theorem witness_ResultsChangeOnlyAtSuccess :
    ∃ s t : State, s.block.StatusConsistent ∧ step s = .next t ∧ ¬s.block.SameResults t.block :=
  ⟨pm01Last, _, by unfold Block.StatusConsistent; decide, rfl, by
    unfold Block.SameResults; decide⟩

/-- A write to A (HZ-02), and one to ITER. -/
theorem witness_OnlyHostOrResetChangesOperands :
    (∃ s t : State, step s = .next t ∧ ¬s.block.SameOperands t.block ∧
        s.program = [.wr 4 0x400 9]) ∧
      ∃ s t : State, step s = .next t ∧ ¬s.block.SameOperands t.block ∧
        s.program = [.wr 4 0x014 9] :=
  ⟨⟨hostWrites 0x400 9 pm01, _, rfl, by unfold Block.SameOperands; decide, rfl⟩,
    ⟨hostWrites 0x014 9 pm01, _, rfl, by unfold Block.SameOperands; decide, rfl⟩⟩

/-- An answer consumed; a reset, and an abort, of a command that waits with an answer at hand. -/
theorem witness_AnswersConsumedOnlyInDraw :
    (∃ t, step (mr15Answer 2) = .next t ∧ t.answers ≠ (mr15Answer 2).answers) ∧
      (∃ s t : State, step s = .next t ∧ s.block.st = .mrDraw ∧ s.answers = [2] ∧
        t.freeCount ≠ s.freeCount) ∧
      ∃ s t : State, step s = .next t ∧ s.block.st ≠ .mrDraw ∧ s.answers = [2] :=
  ⟨⟨_, rfl, by decide⟩,
    ⟨{ mr15Answer 2 with schedule := [.reset] }, _, rfl, rfl, rfl, by decide⟩,
    ⟨{ pm01 with answers := [2] }, _, rfl, by decide, rfl⟩⟩

theorem witness_LegalProgramNeverStops :
    ∀ op ∈ [HostOp.rd 4 0x17FC, .wr 4 0x404 5, waitDone], op.Legal := by
  intro op h
  simp only [List.mem_cons, List.not_mem_nil, or_false] at h
  rcases h with rfl | rfl | rfl
  · exact ⟨.word .witness 255, rfl⟩
  · exact ⟨.word .a 1, rfl⟩
  · exact ⟨.status, rfl⟩

theorem witness_PowmodComputesPower :
    (idleAt 1 4 13 497 0).block.st = .idle ∧ win (idleAt 1 4 13 497 0).block.winN ≠ 0 ∧
      (idleAt 1 4 13 497 0).schedule = [] ∧
      (idleAt 1 4 13 497 0).block.winN.length = (idleAt 1 4 13 497 0).config.limbs := by decide

/-- PM-01 running, in each of the four ways a step can go. -/
theorem witness_PowmodRightUnderEveryInterleaving :
    pm01.block.PowmodRunning 4 13 497 ∧ pm01Last.block.PowmodRunning 4 13 497 ∧
      (∃ t, step pm01 = .next t) ∧ (∃ t, step pm01Last = .next t) ∧
      (∃ t, step (hostWrites 0x008 0x2 pm01) = .next t) ∧
      ∃ t, step (hostWrites 0x008 0x4 pm01) = .next t := by
  refine ⟨?_, ?_, ⟨_, rfl⟩, ⟨_, rfl⟩, ⟨_, rfl⟩, ⟨_, rfl⟩⟩ <;>
    (unfold Block.PowmodRunning; decide)

/-- The candidates at the ends of the special cases, for both commands. -/
theorem witness_SpecialCandidatesDecidedAtOnce :
    ∀ n : Nat, n = 0 ∨ n = 4 ∨ n = 0xFFFFFFFE →
      (idleAt 1 0 0 n 1).block.st = .idle ∧ (idleAt 1 0 0 n 1).schedule = [] ∧
        1 ≤ (idleAt 1 0 0 n 1).block.iter.toNat ∧
        (win (idleAt 1 0 0 n 1).block.winN < 5 ∨ win (idleAt 1 0 0 n 1).block.winN % 2 = 0) := by
  intro n h
  rcases h with rfl | rfl | rfl <;> decide

/-- MT-10 and MT-09: the witnesses 1 and `n - 1` for the candidate 5. -/
theorem witness_WitnessOutOfRange :
    ∀ a : Nat, a = 1 ∨ a = 4 →
      (idleAt 1 a 0 5 0).config.Legal ∧ (idleAt 1 a 0 5 0).block.st = .idle ∧
        (idleAt 1 a 0 5 0).schedule = [] ∧
        (idleAt 1 a 0 5 0).block.winN.length = (idleAt 1 a 0 5 0).config.limbs ∧
        5 ≤ win (idleAt 1 a 0 5 0).block.winN ∧ win (idleAt 1 a 0 5 0).block.winN % 2 = 1 ∧
        (win (idleAt 1 a 0 5 0).block.winA < 2 ∨
          win (idleAt 1 a 0 5 0).block.winN - 2 < win (idleAt 1 a 0 5 0).block.winA) := by
  intro a h
  rcases h with rfl | rfl <;> decide

/-- MT-13: the candidate 561 with witness 2. -/
theorem witness_MrTrialVerdict :
    (idleAt 1 2 0 561 0).config.Legal ∧ (idleAt 1 2 0 561 0).block.st = .idle ∧
      (idleAt 1 2 0 561 0).schedule = [] ∧
      (idleAt 1 2 0 561 0).block.winN.length = (idleAt 1 2 0 561 0).config.limbs ∧
      5 ≤ win (idleAt 1 2 0 561 0).block.winN ∧ win (idleAt 1 2 0 561 0).block.winN % 2 = 1 ∧
      win (idleAt 1 2 0 561 0).block.winN - 1 = 35 * 2 ^ 4 ∧ 35 % 2 = 1 ∧
      2 ≤ win (idleAt 1 2 0 561 0).block.winA ∧
      win (idleAt 1 2 0 561 0).block.winA ≤ win (idleAt 1 2 0 561 0).block.winN - 2 := by decide

/-- MT-16 passes on its chain (18, 24) and MT-12 does not (2, 4, 7), so both outcomes of a trial occur. -/
theorem witness_TrialPasses : TrialPasses 25 3 3 7 ∧ ¬TrialPasses 9 1 3 2 := by
  have h0 : chainValue 9 1 2 0 = 2 := by decide
  have h1 : chainValue 9 1 2 1 = 4 := by decide
  have h2 : chainValue 9 1 2 2 = 7 := by decide
  refine ⟨.inr (.inr ⟨1, by decide, by decide, by decide, by omega⟩), ?_⟩
  rintro (h | h | ⟨i, hi, hs, hy, -⟩)
  · omega
  · omega
  · obtain rfl | rfl : i = 1 ∨ i = 2 := by omega
    all_goals omega

/-- MR-01: 561, ITER 3, answers 0, 1, 50, 2, of which 2 does not pass; MR-09: 25, ITER 3, answers 7, 18,
which both do. -/
theorem witness_MrTestVerdict :
    (∃ s : State, s.config.Legal ∧ s.block.st = .idle ∧ s.schedule = [] ∧
      s.block.winN.length = s.config.limbs ∧ 5 ≤ win s.block.winN ∧ win s.block.winN % 2 = 1 ∧
      win s.block.winN - 1 = 35 * 2 ^ 4 ∧ 35 % 2 = 1 ∧ 1 ≤ s.block.iter.toNat ∧
      (∀ u ∈ s.answers, u < win s.block.winN - 1) ∧
      s.block.iter.toNat - 1 ≤ (s.answers.filter fun u => decide (2 ≤ u)).length ∧
      [50, 2] = (s.answers.filter fun u => decide (2 ≤ u)).take (s.block.iter.toNat - 1)) ∧
    ∃ s : State, s.config.Legal ∧ s.block.st = .idle ∧ s.schedule = [] ∧
      s.block.winN.length = s.config.limbs ∧ 5 ≤ win s.block.winN ∧ win s.block.winN % 2 = 1 ∧
      win s.block.winN - 1 = 3 * 2 ^ 3 ∧ 3 % 2 = 1 ∧ 1 ≤ s.block.iter.toNat ∧
      (∀ u ∈ s.answers, u < win s.block.winN - 1) ∧
      s.block.iter.toNat - 1 ≤ (s.answers.filter fun u => decide (2 ≤ u)).length ∧
      [7, 18] = (s.answers.filter fun u => decide (2 ≤ u)).take (s.block.iter.toNat - 1) :=
  ⟨⟨{ idleAt 1 0 0 561 3 with answers := [0, 1, 50, 2] }, by decide, rfl, rfl, rfl, by decide,
    by decide, by decide, by decide, by decide, by decide, by decide, by decide⟩,
    ⟨{ idleAt 1 0 0 25 3 with answers := [7, 18] }, by decide, rfl, rfl, rfl, by decide,
    by decide, by decide, by decide, by decide, by decide, by decide, by decide⟩⟩

/-- The end of a trial of the prime 13 that passes (MT-20). -/
theorem witness_PrimeNeverGetsVerdictZero :
    ∃ s t : State, s.Inv ∧ step s = .next t ∧ s.block.st ≠ .idle ∧ s.block.work.op ≠ .powmod ∧
      Nat.Prime s.block.work.n ∧ t.block.st = .idle ∧ t.block.done = true ∧
      t.block.errCode = .noError :=
  ⟨mt20Next, _, inv_mt20Next, rfl, by decide, by decide, by
    show Nat.Prime 13
    norm_num, rfl, rfl, rfl⟩

end Sys2Proof.Tests
end

/-! PROOFS. The invariant of the machine is kept by every step, whoever moves (O38): first how each
part of the invariant behaves under the block's updates, then one lemma per move of the engine, one per
move of the host, and the reset. -/

namespace Sys2Proof.Machine

/-! ### Counters and registers -/

/-- A counter below another one of its width does not wrap. -/
theorem toNat_add_one_of_lt {m : Nat} {x y : BitVec m} (h : x.toNat < y.toNat) :
    (x + 1#m).toNat = x.toNat + 1 := by
  have hy := y.isLt
  rw [BitVec.toNat_add, BitVec.toNat_ofNat, Nat.add_mod_mod, Nat.mod_eq_of_lt (by omega)]

/-- An iteration of square-and-multiply keeps the W-bit registers below `2^W`. -/
theorem Working.Fits.iterate {width : Nat} {k : Working} (h : k.Fits width) (hn : 0 < k.n)
    (hv : k.v < k.n) : k.iterate.Fits width :=
  have hlt := Working.iterate_lt hn hv
  { h with
    b := hlt.2.trans h.n
    e := (Nat.div_le_self _ _).trans_lt h.e
    v := hlt.1.trans h.n }

/-- The power of two in `n - 1` is below the operand width (R136). -/
theorem Working.exponent_lt_width {width : Nat} {k : Working} (h : k.Fits width) (hn : k.Candidate)
    (hdec : k.n - 1 = k.r * 2 ^ k.s.toNat) : k.s.toNat < width := by
  obtain ⟨hn5, -⟩ := hn
  have hr : 0 < k.r := Nat.pos_of_ne_zero fun h0 => by rw [h0, Nat.zero_mul] at hdec; omega
  have hpow : 2 ^ k.s.toNat < 2 ^ width :=
    calc 2 ^ k.s.toNat ≤ k.r * 2 ^ k.s.toNat := Nat.le_mul_of_pos_left _ hr
      _ = k.n - 1 := hdec.symm
      _ < 2 ^ width := (Nat.sub_le _ _).trans_lt h.n
  exact (Nat.pow_lt_pow_iff_right (by decide)).mp hpow

/-- A decomposition of the even `n - 1` whose cofactor is odd has at least one factor 2 (R136). -/
theorem Working.decomposed_of_odd {k : Working} (hn : k.Candidate)
    (hdec : k.n - 1 = k.r * 2 ^ k.s.toNat) (hr : k.r % 2 = 1) : k.Decomposed := by
  refine ⟨hn, hdec, hr, Nat.pos_of_ne_zero fun hs => ?_⟩
  obtain ⟨hn5, hodd⟩ := hn
  rw [hs, Nat.pow_zero, Nat.mul_one] at hdec
  omega

/-- Short of the number of trials to run, another trial can begin. -/
theorem Working.TrialBudget.trials_lt {k : Working} (h : k.TrialBudget) (hne : k.trials ≠ k.eff) :
    k.trials.toNat < k.eff.toNat := by
  obtain ⟨-, -, hle⟩ := h
  exact hle.lt_of_ne fun heq => hne (BitVec.eq_of_toNat_eq heq)

/-- A trial that begins with a witness in range is running (R144). -/
theorem Working.trialRunning_of_begin {k : Working} {x : Nat} (hdec : k.Decomposed)
    (hbudget : k.TrialBudget) (hlt : k.trials.toNat < k.eff.toNat) (h2 : 2 ≤ x) (hx : x ≤ k.n - 2) :
    Working.TrialRunning
      { k with w := x, trials := k.trials + 1, b := x, e := k.r, v := 1 } := by
  obtain ⟨hop, hone, -⟩ := hbudget
  have hsucc : (k.trials + 1).toNat = k.trials.toNat + 1 := toNat_add_one_of_lt hlt
  refine ⟨hdec, ⟨hop, hone, ?_⟩, ?_, h2, hx⟩
  · exact hsucc.trans_le hlt
  · exact (Nat.le_add_left 1 _).trans_eq hsucc.symm

/-- Squaring a value of the squaring chain gives the next one (R146, R147). -/
theorem mulmod_chain_square (x r n : Nat) {j : Nat} (hj : 1 ≤ j) :
    mulmod (x ^ (r * 2 ^ (j - 1)) % n) (x ^ (r * 2 ^ (j - 1)) % n) n = x ^ (r * 2 ^ j) % n := by
  obtain ⟨i, rfl⟩ := Nat.exists_eq_add_of_le' hj
  rw [mulmod, ← Nat.mul_mod, ← pow_add, Nat.add_sub_cancel, pow_succ, ← mul_two, mul_assoc]

/-! ### The parts of the invariant of the block -/

section SeqInvCases

variable {k : Block}

/-! What the invariant says in each state a command runs through. -/

theorem Block.seqInv_pmLoop (hst : k.st = .pmLoop) (h : k.SeqInv) :
    k.work.op = .powmod ∧ 1 ≤ k.work.n ∧ k.work.v < k.work.n ∧ k.work.b < k.work.n := by
  rwa [Block.SeqInv, hst] at h

theorem Block.seqInv_mrCheck (hst : k.st = .mrCheck) (h : k.SeqInv) :
    k.work.TrialBudget ∧ k.work.trials = 0 ∧ k.work.draws = 0 ∧ k.work.s = 0 := by
  rwa [Block.SeqInv, hst] at h

theorem Block.seqInv_mrDecomp (hst : k.st = .mrDecomp) (h : k.SeqInv) :
    k.work.TrialBudget ∧ k.work.trials = 0 ∧ k.work.draws = 0 ∧ k.work.Candidate ∧
      k.work.n - 1 = k.work.r * 2 ^ k.work.s.toNat := by
  rwa [Block.SeqInv, hst] at h

theorem Block.seqInv_mrNext (hst : k.st = .mrNext) (h : k.SeqInv) :
    k.work.Decomposed ∧ k.work.TrialBudget := by
  rwa [Block.SeqInv, hst] at h

theorem Block.seqInv_mrDraw (hst : k.st = .mrDraw) (h : k.SeqInv) :
    k.work.Decomposed ∧ k.work.TrialBudget ∧ k.work.op = .mrTest ∧
      k.work.trials.toNat < k.work.eff.toNat ∧ k.rndBound = k.work.n - 1 := by
  rwa [Block.SeqInv, hst] at h

theorem Block.seqInv_mrPow (hst : k.st = .mrPow) (h : k.SeqInv) :
    k.work.TrialRunning ∧ k.work.v < k.work.n ∧ k.work.b < k.work.n ∧
      k.work.v * k.work.b ^ k.work.e % k.work.n = k.work.w ^ k.work.r % k.work.n := by
  rwa [Block.SeqInv, hst] at h

theorem Block.seqInv_mrChain (hst : k.st = .mrChain) (h : k.SeqInv) :
    k.work.TrialRunning ∧ 1 ≤ k.work.j.toNat ∧ k.work.j.toNat ≤ k.work.s.toNat ∧
      k.work.y = k.work.w ^ (k.work.r * 2 ^ (k.work.j.toNat - 1)) % k.work.n ∧
      (∀ i, i < k.work.j.toNat → k.work.w ^ (k.work.r * 2 ^ i) % k.work.n ≠ 1) ∧
      (∀ i, i + 1 < k.work.j.toNat →
        k.work.w ^ (k.work.r * 2 ^ i) % k.work.n ≠ k.work.n - 1) := by
  rwa [Block.SeqInv, hst] at h

end SeqInvCases

/-- What a sequencer state implies depends on the state, the working registers and the bound alone. -/
theorem Block.SeqInv.congr {k l : Block} (h : k.SeqInv) (hst : l.st = k.st) (hwork : l.work = k.work)
    (hbound : l.rndBound = k.rndBound) : l.SeqInv := by
  unfold Block.SeqInv
  rw [hst, hwork, hbound]
  exact h

/-- Whether STATUS is consistent depends on DONE, ERR_CODE and the sequencer state alone. -/
theorem Block.StatusConsistent.congr {k l : Block} (h : k.StatusConsistent) (hdone : l.done = k.done)
    (herr : l.errCode = k.errCode) (hst : l.st = k.st) : l.StatusConsistent := by
  rw [Block.StatusConsistent, Block.busy_iff] at h ⊢
  rw [hdone, herr, hst]
  exact h

/-- In IDLE the invariant asks for windows and registers of the right size, and for `DONE` with an
error. -/
theorem Block.inv_of_idle {c : Config} {k : Block} (hst : k.st = .idle)
    (hlen : ∀ x, (k.window x).length = c.limbs) (hfits : k.work.Fits c.width)
    (hbound : k.rndBound < 2 ^ c.width) (herr : k.errCode ≠ .noError → k.done = true)
    (hpending : k.rndPending = false) : k.Inv c where
  lengths := hlen
  fits := hfits
  boundFits := hbound
  status := ⟨herr, fun hbusy => absurd hst (k.busy_iff.mp hbusy)⟩
  request := by simp [hpending, hst]
  seq := by rw [Block.SeqInv, hst]; trivial

/-- Every window has `n` limbs, window by window. -/
theorem Block.forall_window_length {k : Block} {n : Nat} :
    (∀ x, (k.window x).length = n) ↔ k.winA.length = n ∧ k.winD.length = n ∧ k.winN.length = n ∧
      k.result.length = n ∧ k.witness.length = n := by
  refine ⟨fun h => ⟨h .a, h .d, h .n, h .result, h .witness⟩, fun ⟨ha, hd, hn, hr, hw⟩ x => ?_⟩
  cases x with
  | a => exact ha
  | d => exact hd
  | n => exact hn
  | result => exact hr
  | witness => exact hw

section Updates

variable {c : Config} {k : Block} (h : k.Inv c)

include h

/-- A window's value is a W-bit number (R31). -/
theorem Block.Inv.win_lt (x : Window) : win (k.window x) < 2 ^ c.width := by
  have hlt := Sys2Proof.Machine.win_lt (k.window x)
  rwa [h.lengths x] at hlt

/-- No request is pending outside MR_DRAW (R41). -/
theorem Block.Inv.rndPending_eq_false (hst : k.st ≠ .mrDraw) : k.rndPending = false :=
  Bool.eq_false_iff.mpr fun hp => hst (h.request.mp hp)

/-- A running command goes on: the step changes the working registers, the sequencer state and the random
request alone. -/
theorem Block.Inv.proceed (hbusy : k.st ≠ .idle) {work : Working} {st : SeqState} {pending : Bool}
    {bound : Nat} (hfits : work.Fits c.width) (hbound : bound < 2 ^ c.width)
    (hreq : pending = true ↔ st = .mrDraw)
    (hseq : Block.SeqInv
      { k with work := work, st := st, rndPending := pending, rndBound := bound }) :
    Block.Inv c { k with work := work, st := st, rndPending := pending, rndBound := bound } where
  lengths := Block.forall_window_length.mpr (Block.forall_window_length.mp h.lengths)
  fits := hfits
  boundFits := hbound
  status := ⟨h.status.1, fun _ => h.status.2 (k.busy_iff.mpr hbusy)⟩
  request := hreq
  seq := hseq

/-- A running command goes on from `st` to `st'` with the random port idle. -/
theorem Block.Inv.proceed_quiet {st st' : SeqState} (hst : k.st = st)
    (hquiet : st ≠ .idle ∧ st ≠ .mrDraw ∧ st' ≠ .mrDraw) {work : Working}
    (hfits : work.Fits c.width) (hseq : Block.SeqInv { k with work := work, st := st' }) :
    Block.Inv c { k with work := work, st := st' } := by
  subst hst
  obtain ⟨hbusy, hdraw, hdraw'⟩ := hquiet
  exact h.proceed hbusy hfits h.boundFits (by simp [h.rndPending_eq_false hdraw, hdraw']) hseq

/-- A running command goes on in the state it is in, with the random port idle. -/
theorem Block.Inv.remain_quiet {st : SeqState} (hst : k.st = st) (hquiet : st ≠ .idle ∧ st ≠ .mrDraw)
    {work : Working} (hfits : work.Fits c.width)
    (hseq : Block.SeqInv { k with work := work, st := st }) : Block.Inv c { k with work := work } := by
  subst hst
  exact h.proceed_quiet rfl ⟨hquiet.1, hquiet.2, hquiet.2⟩ hfits hseq

/-- Ending with an error keeps the invariant, whatever W-bit values the registers are left with
(R202). -/
theorem Block.Inv.fail (code : ErrCode) {work : Working} (hfits : work.Fits c.width) :
    (Block.fail code { k with work := work }).Inv c :=
  Block.inv_of_idle rfl (Block.forall_window_length.mpr (Block.forall_window_length.mp h.lengths))
    hfits h.boundFits (fun _ => rfl) rfl

/-- The end of a POWMOD keeps the invariant (R116). -/
theorem Block.Inv.finishPm (hdraw : k.st ≠ .mrDraw) : (k.finishPm c.limbs).Inv c := by
  obtain ⟨ha, hd, hn, -, hw⟩ := Block.forall_window_length.mp h.lengths
  exact Block.inv_of_idle rfl
    (Block.forall_window_length.mpr ⟨ha, hd, hn, toLimbs_length _ _, hw⟩)
    h.fits h.boundFits (fun _ => rfl) (h.rndPending_eq_false hdraw)

/-- The end of a Miller-Rabin command keeps the invariant (R148). -/
theorem Block.Inv.finishMr (hdraw : k.st ≠ .mrDraw) (verdict : Bool) {work : Working}
    (hfits : work.Fits c.width) : (Block.finishMr c.limbs verdict { k with work := work }).Inv c := by
  obtain ⟨ha, hd, hn, -, -⟩ := Block.forall_window_length.mp h.lengths
  exact Block.inv_of_idle rfl
    (Block.forall_window_length.mpr ⟨ha, hd, hn, toLimbs_length _ _, toLimbs_length _ _⟩)
    hfits h.boundFits (fun _ => rfl) (h.rndPending_eq_false hdraw)

/-- A request for a random value below `n - 1` keeps the invariant (R140). -/
theorem Block.Inv.rndRequest (hbusy : k.st ≠ .idle) (hdec : k.work.Decomposed)
    (hbudget : k.work.TrialBudget) (hop : k.work.op = .mrTest)
    (hlt : k.work.trials.toNat < k.work.eff.toNat) : (k.rndRequest (k.work.n - 1)).Inv c :=
  h.proceed hbusy h.fits ((Nat.sub_le _ _).trans_lt h.fits.n) (by simp)
    ⟨hdec, hbudget, hop, hlt, rfl⟩

/-- A trial that begins with a witness in range, any request withdrawn, keeps the invariant (R144). -/
theorem Block.Inv.beginTrial (hbusy : k.st ≠ .idle) (hdec : k.work.Decomposed)
    (hbudget : k.work.TrialBudget) (hlt : k.work.trials.toNat < k.work.eff.toNat) {x : Nat}
    (h2 : 2 ≤ x) (hx : x ≤ k.work.n - 2) {pending : Bool} (hpending : pending = false) :
    (Block.beginTrial x { k with rndPending := pending }).Inv c := by
  have ⟨⟨hn5, _⟩, _⟩ := hdec
  have hxn : x < k.work.n := by omega
  have hfits : Working.Fits c.width { k.work with
      w := x, trials := k.work.trials + 1, b := x, e := k.work.r, v := 1 } :=
    { h.fits with
      b := hxn.trans h.fits.n
      e := h.fits.r
      v := (show 1 < k.work.n by omega).trans h.fits.n
      w := hxn.trans h.fits.n }
  refine h.proceed hbusy hfits h.boundFits (by simp [hpending])
    ⟨Working.trialRunning_of_begin hdec hbudget hlt h2 hx, ?_, hxn, ?_⟩
  · show 1 < k.work.n
    omega
  · show 1 * x ^ k.work.r % k.work.n = x ^ k.work.r % k.work.n
    rw [Nat.one_mul]

/-- Accepting a command keeps the invariant when what its first state asks for holds (R95). -/
theorem Block.Inv.accept (hidle : k.st = .idle) {op : Opcode} {work : Working} {st : SeqState}
    (hst : st ≠ .mrDraw) (hfits : work.Fits c.width)
    (hseq : Block.SeqInv { k.accept op with work := work, st := st }) :
    Block.Inv c { k.accept op with work := work, st := st } where
  lengths := Block.forall_window_length.mpr (Block.forall_window_length.mp h.lengths)
  fits := hfits
  boundFits := h.boundFits
  status := ⟨fun herr => absurd rfl herr, fun _ => ⟨rfl, rfl⟩⟩
  request := by simp [h.rndPending_eq_false (by simp [hidle] : k.st ≠ .mrDraw), hst]
  seq := hseq

/-- A change that leaves the command, the request and the sizes of the windows alone keeps the invariant
if STATUS stays consistent. -/
theorem Block.Inv.of_same_command {l : Block} (hlen : ∀ x, (l.window x).length = (k.window x).length)
    (hstatus : l.StatusConsistent) (hwork : l.work = k.work) (hst : l.st = k.st)
    (hpending : l.rndPending = k.rndPending) (hbound : l.rndBound = k.rndBound) : l.Inv c where
  lengths := fun x => (hlen x).trans (h.lengths x)
  fits := hwork ▸ h.fits
  boundFits := hbound ▸ h.boundFits
  status := hstatus
  request := by rw [hpending, hst]; exact h.request
  seq := h.seq.congr hst hwork hbound

end Updates

/-! ### The engine's moves -/

section EngineMoves

variable {c : Config} {k : Block} (h : k.Inv c)

include h

theorem Block.Inv.pmIterate (hst : k.st = .pmLoop) :
    Block.Inv c { k with work := k.work.iterate } := by
  obtain ⟨hop, hn, hv, -⟩ := Block.seqInv_pmLoop hst h.seq
  have hlt := Working.iterate_lt hn hv
  exact h.remain_quiet hst (by decide) (h.fits.iterate hn hv) ⟨hop, hn, hlt.1, hlt.2⟩

theorem Block.Inv.checkOdd (hst : k.st = .mrCheck) (hn : k.work.Candidate) :
    Block.Inv c { k with work := { k.work with r := k.work.n - 1 }, st := .mrDecomp } := by
  obtain ⟨hbudget, htrials, hdraws, hs⟩ := Block.seqInv_mrCheck hst h.seq
  refine h.proceed_quiet hst (by decide)
    { h.fits with r := (Nat.sub_le _ _).trans_lt h.fits.n } ⟨hbudget, htrials, hdraws, hn, ?_⟩
  show k.work.n - 1 = (k.work.n - 1) * 2 ^ k.work.s.toNat
  simp [hs]

/-- The halvings are fewer than `W`, so `s` does not wrap (R136). -/
theorem Block.Inv.halve (hc : c.Legal) (hst : k.st = .mrDecomp) (hr : k.work.r % 2 = 0) :
    Block.Inv c { k with work := { k.work with r := k.work.r / 2, s := k.work.s + 1 } } := by
  obtain ⟨hbudget, htrials, hdraws, hn, hdec⟩ := Block.seqInv_mrDecomp hst h.seq
  have hwidth : c.width ≤ 8192 := Nat.mul_le_mul_left 32 hc.2.1
  have hsucc : (k.work.s + 1).toNat = k.work.s.toNat + 1 :=
    toNat_add_one_of_lt (y := 8192#16) ((Working.exponent_lt_width h.fits hn hdec).trans_le hwidth)
  have hdec' : k.work.n - 1 = k.work.r / 2 * 2 ^ (k.work.s + 1).toNat := by
    rw [hsucc, pow_succ', ← mul_assoc, Nat.div_mul_cancel (Nat.dvd_of_mod_eq_zero hr), hdec]
  exact h.remain_quiet hst (by decide) { h.fits with r := (Nat.div_le_self _ _).trans_lt h.fits.r }
    ⟨hbudget, htrials, hdraws, hn, hdec'⟩

theorem Block.Inv.decomposed (hst : k.st = .mrDecomp) (hr : k.work.r % 2 = 1) :
    Block.Inv c { k with st := .mrNext } := by
  obtain ⟨hbudget, -, -, hn, hdec⟩ := Block.seqInv_mrDecomp hst h.seq
  exact h.proceed_quiet hst (by decide) h.fits
    ⟨Working.decomposed_of_odd hn hdec hr, hbudget⟩

theorem Block.Inv.hostWitness (hst : k.st = .mrNext) (ht : k.work.trials ≠ k.work.eff)
    (h2 : 2 ≤ k.work.wa) (hn : k.work.wa ≤ k.work.n - 2) : (k.beginTrial k.work.wa).Inv c := by
  obtain ⟨hdec, hbudget⟩ := Block.seqInv_mrNext hst h.seq
  exact h.beginTrial (by simp [hst]) hdec hbudget (hbudget.trials_lt ht) h2 hn
    (h.rndPending_eq_false (by simp [hst]))

theorem Block.Inv.request_of_mrNext (hst : k.st = .mrNext) (ht : k.work.trials ≠ k.work.eff)
    (hop : k.work.op ≠ .mrTrial) : (k.rndRequest (k.work.n - 1)).Inv c := by
  obtain ⟨hdec, hbudget⟩ := Block.seqInv_mrNext hst h.seq
  have hop' : k.work.op = .mrTest := by
    obtain ⟨hpow, -⟩ := hbudget
    cases ho : k.work.op
    case mrTest => rfl
    case powmod => exact absurd ho hpow
    case mrTrial => exact absurd ho hop
  exact h.rndRequest (by simp [hst]) hdec hbudget hop' (hbudget.trials_lt ht)

/-- Counting a random value keeps the invariant: only MR_TEST draws (R143, R151). -/
theorem Block.Inv.countDraw (hst : k.st = .mrDraw) (draws : BitVec 32) :
    Block.Inv c { k with work := { k.work with draws := draws } } := by
  obtain ⟨hdec, hbudget, hop, hlt, hbound⟩ := Block.seqInv_mrDraw hst h.seq
  obtain ⟨hpow, -, hle⟩ := hbudget
  have hnotTrial : k.work.op ≠ .mrTrial := by simp [hop]
  have hnext : Block.Inv c { k with work := { k.work with draws := draws }, st := .mrDraw } :=
    h.proceed (by simp [hst]) { h.fits with } h.boundFits (by rw [h.request, hst])
      ⟨hdec, ⟨hpow, fun ho => absurd ho hnotTrial, hle⟩, hop, hlt, hbound⟩
  rwa [← hst] at hnext

theorem Block.Inv.redraw (hst : k.st = .mrDraw) : (k.rndRequest k.rndBound).Inv c := by
  obtain ⟨hdec, hbudget, hop, hlt, hbound⟩ := Block.seqInv_mrDraw hst h.seq
  rw [hbound]
  exact h.rndRequest (by simp [hst]) hdec hbudget hop hlt

theorem Block.Inv.drawn (hst : k.st = .mrDraw) {u : Nat} (hu : u < k.rndBound) (h2 : 2 ≤ u) :
    (Block.beginTrial u { k with rndPending := false }).Inv c := by
  obtain ⟨hdec, hbudget, -, hlt, hbound⟩ := Block.seqInv_mrDraw hst h.seq
  exact h.beginTrial (by simp [hst]) hdec hbudget hlt h2 (by omega) rfl

theorem Block.Inv.powIterate (hst : k.st = .mrPow) :
    Block.Inv c { k with work := k.work.iterate } := by
  obtain ⟨hrun, hv, -, hpow⟩ := Block.seqInv_mrPow hst h.seq
  have hn : 0 < k.work.n := (Nat.zero_le _).trans_lt hv
  have hlt := Working.iterate_lt hn hv
  exact h.remain_quiet hst (by decide) (h.fits.iterate hn hv)
    ⟨hrun, hlt.1, hlt.2, k.work.iterate_power.trans hpow⟩

theorem Block.Inv.powPassed (hst : k.st = .mrPow) :
    Block.Inv c { k with work := { k.work with y := k.work.v }, st := .mrNext } := by
  obtain ⟨⟨hdec, hbudget, -⟩, -⟩ := Block.seqInv_mrPow hst h.seq
  exact h.proceed_quiet hst (by decide) { h.fits with y := h.fits.v }
    ⟨hdec, hbudget⟩

/-- With the exponent used up, the accumulator is the chain's first value (R145, R147). -/
theorem Block.Inv.powToChain (hst : k.st = .mrPow) (he : k.work.e = 0) (h1 : k.work.v ≠ 1) :
    Block.Inv c { k with work := { k.work with y := k.work.v, j := 1 }, st := .mrChain } := by
  obtain ⟨hrun, hv, -, hpow⟩ := Block.seqInv_mrPow hst h.seq
  have ⟨⟨_, _, _, hs⟩, _⟩ := hrun
  have hfirst : k.work.v = k.work.w ^ k.work.r % k.work.n := by
    rwa [he, pow_zero, mul_one, Nat.mod_eq_of_lt hv] at hpow
  refine h.proceed_quiet hst (by decide) { h.fits with y := h.fits.v }
    ⟨hrun, le_rfl, hs, ?_, fun i hi => ?_, fun i hi => ?_⟩
  · show k.work.v = k.work.w ^ (k.work.r * 1) % k.work.n
    rwa [mul_one]
  · obtain rfl : i = 0 := Nat.lt_one_iff.mp hi
    show k.work.w ^ (k.work.r * 1) % k.work.n ≠ 1
    rwa [mul_one, ← hfirst]
  · exact absurd (show i + 1 < 1 from hi) (by omega)

/-- A squaring that gives neither end of the chain is the chain's next value (R146, R147). -/
theorem Block.Inv.square (hst : k.st = .mrChain) (hj : k.work.j.toNat + 1 ≤ k.work.s.toNat)
    (hy : k.work.y ≠ k.work.n - 1) (h1 : mulmod k.work.y k.work.y k.work.n ≠ 1) :
    Block.Inv c { k with work :=
      { k.work with y := mulmod k.work.y k.work.y k.work.n, j := k.work.j + 1 } } := by
  obtain ⟨hrun, hj1, -, hval, hne1, hneN⟩ := Block.seqInv_mrChain hst h.seq
  have ⟨⟨⟨hn5, _⟩, _⟩, _⟩ := hrun
  have hsucc : (k.work.j + 1).toNat = k.work.j.toNat + 1 := toNat_add_one_of_lt hj
  have hsquare : mulmod k.work.y k.work.y k.work.n =
      k.work.w ^ (k.work.r * 2 ^ k.work.j.toNat) % k.work.n := by
    rw [hval, mulmod_chain_square _ _ _ hj1]
  have hfits : Working.Fits c.width
      { k.work with y := mulmod k.work.y k.work.y k.work.n, j := k.work.j + 1 } :=
    { h.fits with y := (mulmod_lt _ _ (by omega)).trans h.fits.n }
  refine h.remain_quiet hst (by decide) hfits ⟨hrun, ?_⟩
  simp only [hsucc, Nat.add_sub_cancel]
  refine ⟨by omega, hj, hsquare, fun i hi => ?_, fun i hi => ?_⟩
  · rcases Nat.lt_succ_iff_lt_or_eq.mp hi with hlt | rfl
    · exact hne1 i hlt
    · rwa [← hsquare]
  · by_cases hlt : i + 1 < k.work.j.toNat
    · exact hneN i hlt
    · obtain rfl : i = k.work.j.toNat - 1 := by omega
      rwa [← hval]

theorem Block.Inv.squareToOne (hst : k.st = .mrChain) :
    (Block.finishMr c.limbs false
      { k with work := { k.work with y := 1, j := k.work.j + 1 } }).Inv c := by
  obtain ⟨⟨⟨⟨hn5, -⟩, -⟩, -⟩, -⟩ := Block.seqInv_mrChain hst h.seq
  exact h.finishMr (by simp [hst]) false
    { h.fits with y := (show 1 < k.work.n by omega).trans h.fits.n }

theorem Block.Inv.chainPassed (hst : k.st = .mrChain) : Block.Inv c { k with st := .mrNext } := by
  obtain ⟨⟨hdec, hbudget, -⟩, -⟩ := Block.seqInv_mrChain hst h.seq
  exact h.proceed_quiet hst (by decide) h.fits ⟨hdec, hbudget⟩

/-- Every move of the engine keeps the invariant of the block. -/
theorem Block.Inv.engineMove (hc : c.Legal) {l : Block} (hm : Block.EngineMove c.limbs k l) :
    l.Inv c := by
  cases hm with
  | pmIterate hst => exact h.pmIterate hst
  | pmEnd hst => exact h.finishPm (by simp [hst])
  | checkSmall hst => exact h.finishMr (by simp [hst]) _ h.fits
  | checkEven hst => exact h.finishMr (by simp [hst]) _ h.fits
  | checkOdd hst hn => exact h.checkOdd hst hn
  | halve hst hr => exact h.halve hc hst hr
  | decomposed hst hr => exact h.decomposed hst hr
  | allPassed hst => exact h.finishMr (by simp [hst]) _ h.fits
  | outOfRange => exact h.fail _ h.fits
  | hostWitness hst ht _ h2 hn => exact h.hostWitness hst ht h2 hn
  | request hst ht hop => exact h.request_of_mrNext hst ht hop
  | drawFault hst => exact h.fail _ (h.countDraw hst _).fits
  | redraw hst => exact (h.countDraw hst _).redraw hst
  | drawn hst u hu h2 => exact (h.countDraw hst (satIncr k.work.draws)).drawn hst hu h2
  | powIterate hst => exact h.powIterate hst
  | powPassed hst => exact h.powPassed hst
  | powToChain hst he h1 => exact h.powToChain hst he h1
  | squareToOne hst => exact h.squareToOne hst
  | square hst hj hy h1 => exact h.square hst hj hy h1
  | chainEnd hst => exact h.finishMr (by simp [hst]) _ h.fits
  | chainPassed hst => exact h.chainPassed hst

end EngineMoves

/-! ### The host's moves -/

/-- A write to STATUS clears DONE and ERR_CODE together (R187). -/
theorem Block.StatusConsistent.clearStatus {k : Block} (h : k.StatusConsistent) (x : Word) :
    (k.clearStatus x).StatusConsistent := by
  by_cases hclear : x.getLsbD 1
  · exact ⟨fun herr => absurd (if_pos hclear) herr, fun _ => ⟨if_pos hclear, if_pos hclear⟩⟩
  · exact h.congr (if_neg hclear) (if_neg hclear) rfl

theorem Block.window_writeWindow_length (limbs : Nat) (x : Window) (i : Nat) (val : Word) (k : Block)
    (y : Window) : ((k.writeWindow limbs x i val).window y).length = (k.window y).length := by
  cases x <;> cases y <;> simp [Block.writeWindow, Block.window]

section HostMoves

variable {c : Config} {k : Block} (h : k.Inv c)

include h

theorem Block.Inv.setIrqEn (irqEn : Bool) : (k.setIrqEn irqEn).Inv c :=
  h.of_same_command (fun x => by cases x <;> rfl) h.status rfl rfl rfl rfl

theorem Block.Inv.writeWindow (x : Window) (i : Nat) (val : Word) :
    (k.writeWindow c.limbs x i val).Inv c :=
  h.of_same_command (Block.window_writeWindow_length _ _ _ _ _)
    (h.status.congr (by simp) (by simp) (by simp)) (by simp) (by simp) (by simp) (by simp)

theorem Block.Inv.startPowmod (hidle : k.st = .idle) (hn : win k.winN ≠ 0) : k.startPowmod.Inv c := by
  have hpos : 0 < win k.winN := Nat.pos_of_ne_zero hn
  have hN : win k.winN < 2 ^ c.width := h.win_lt .n
  have hmod (a : Nat) : a % win k.winN < win k.winN := Nat.mod_lt a hpos
  exact h.accept hidle (by simp)
    { h.fits with n := hN, b := (hmod _).trans hN, e := h.win_lt .d, v := (hmod _).trans hN }
    ⟨rfl, hpos, hmod _, hmod _⟩

theorem Block.Inv.startMrTest (hidle : k.st = .idle) : k.startMrTest.Inv c :=
  h.accept hidle (by simp) { h.fits with n := h.win_lt .n }
    ⟨⟨by simp, by simp, Nat.zero_le _⟩, rfl, rfl, rfl⟩

theorem Block.Inv.startMrTrial (hidle : k.st = .idle) : k.startMrTrial.Inv c :=
  h.accept hidle (by simp) { h.fits with n := h.win_lt .n, wa := h.win_lt .a }
    ⟨⟨by simp, fun _ => ⟨rfl, rfl⟩, Nat.zero_le _⟩, rfl, rfl, rfl⟩

/-- Every host write but SRST keeps the invariant of the block. -/
theorem Block.Inv.hostMove {val : Word} {reg : Reg} {l : Block}
    (hm : Block.HostMove c.limbs val k reg l) : l.Inv c := by
  cases hm with
  | ignored => exact h
  | status =>
    exact h.of_same_command (fun x => by cases x <;> rfl) (h.status.clearStatus val) rfl rfl rfl rfl
  | iter => exact h.of_same_command (fun x => by cases x <;> rfl) h.status rfl rfl rfl rfl
  | word x i => exact h.writeWindow x i val
  | irqEn => exact h.setIrqEn _
  | abort => exact (h.setIrqEn _).fail _ h.fits
  | overrun => exact h.of_same_command (fun x => by cases x <;> rfl) h.status rfl rfl rfl rfl
  | refused => exact h.fail _ h.fits
  | powmod hst hn => exact h.startPowmod hst hn
  | mrTest hst => exact h.startMrTest hst
  | mrTrial hst => exact h.startMrTrial hst

end HostMoves

/-! ### Reset -/

/-- The reset state of the block meets the invariant, whatever W-bit values the unspecified registers
hold (R230). -/
theorem Block.inv_reset {c : Config} {work : Working} {bound : Nat} (hfits : work.Fits c.width)
    (hbound : bound < 2 ^ c.width) : (Block.reset c.limbs work bound).Inv c :=
  Block.inv_of_idle rfl (fun x => by cases x <;> exact List.length_replicate) hfits hbound
    (fun herr => absurd rfl herr) rfl

theorem State.inv_resetBlock (s : State) : s.resetBlock.block.Inv s.config := by
  obtain ⟨hn, hb, he, hv, hr, hy, hwa, hw⟩ := freeWorking_wide s.config.width s.freeCount
  exact Block.inv_reset ⟨hn, hb, he, hv, hr, hy, hwa, hw⟩ (Nat.mod_lt _ (Nat.two_pow_pos _))

/-! ### Every step -/

/-- Settles O38: a step is an engine move, a reset, a step that leaves the block alone, or a host
write. -/
theorem everyStepKeepsInvariant : Obligations.EveryStepKeepsInvariant := by
  intro s t ⟨hlegal, hinv⟩ hstep
  have hblock : t.config = s.config ∧ t.block.Inv s.config := by
    rcases step_cases hstep with
      ⟨hm, hc, -⟩ | ⟨hb, hc, -⟩ | ⟨hb, hc, -⟩ | ⟨off, val, ops, reg, -, -, -, hm, hc, -⟩
    · exact ⟨hc, hinv.engineMove hlegal hm⟩
    · exact ⟨hc, hb ▸ s.inv_resetBlock⟩
    · exact ⟨hc, hb ▸ hinv⟩
    · exact ⟨hc, hinv.hostMove hm⟩
  obtain ⟨hc, hk⟩ := hblock
  exact ⟨hc ▸ hlegal, hc ▸ hk⟩

end Sys2Proof.Machine

/-! PROOFS. What the state holds: the value of a window as the sum of its limbs (O29), the fields of the
STATUS word (O21), and where the operand registers can change (O42). -/

namespace Sys2Proof.Machine

/-! ### A window's value -/

/-- The value of a window, limb by limb (R31). -/
theorem win_eq_sum (ws : List Word) :
    win ws = ((List.range ws.length).map fun i => (ws.getD i 0).toNat * 2 ^ (32 * i)).sum := by
  induction ws with
  | nil => rfl
  | cons x xs ih =>
    have hshift : ∀ i, 2 ^ 32 * ((xs.getD i 0).toNat * 2 ^ (32 * i)) =
        (xs.getD i 0).toNat * 2 ^ (32 * (i + 1)) := fun i => by
      rw [Nat.mul_succ, pow_add, Nat.mul_left_comm, Nat.mul_comm (2 ^ 32)]
    rw [List.length_cons, List.range_succ_eq_map, List.map_cons, List.sum_cons, List.map_map, win, ih,
      ← List.sum_map_mul_left]
    simp only [hshift, Function.comp_def, List.getD_cons_zero, List.getD_cons_succ, Nat.mul_zero,
      pow_zero, Nat.mul_one, Nat.succ_eq_add_one]

/-- Settles O29: the sum is read off the recursion of `win`, the bound is the law `win_lt`. -/
theorem windowValueIsLimbSum : Obligations.WindowValueIsLimbSum :=
  fun ws => ⟨win_eq_sum ws, win_lt ws⟩

/-! ### The operand registers -/

theorem Block.SameOperands.refl (k : Block) : k.SameOperands k := ⟨rfl, rfl, rfl, rfl⟩

/-- No engine step writes an operand register (R85). -/
theorem Block.EngineMove.sameOperands {limbs : Nat} {k l : Block} (h : Block.EngineMove limbs k l) :
    k.SameOperands l := by
  cases h <;> exact ⟨rfl, rfl, rfl, rfl⟩

/-- A write of a window's word is ignored, or replaces one limb of A, D or N (R37, R181). -/
theorem Block.writeWindow_cases (limbs : Nat) (x : Window) (i : Nat) (val : Word) (k : Block) :
    k.writeWindow limbs x i val = k ∨
      (i < limbs ∧
        ((x = .a ∧ k.writeWindow limbs x i val = { k with winA := k.winA.set i val }) ∨
          (x = .d ∧ k.writeWindow limbs x i val = { k with winD := k.winD.set i val }) ∨
          (x = .n ∧ k.writeWindow limbs x i val = { k with winN := k.winN.set i val }))) := by
  by_cases hi : i < limbs
  · cases x <;> simp [Block.writeWindow, limbWrite, hi]
  · left
    cases x <;> simp [Block.writeWindow, limbWrite_above, Nat.le_of_not_lt hi]

/-- A host write of a register other than ITER and the operand windows leaves the operand registers
alone (R181). -/
theorem Block.HostMove.operands_cases {limbs : Nat} {val : Word} {reg : Reg} {k l : Block}
    (h : Block.HostMove limbs val k reg l) :
    k.SameOperands l ∨ (reg = .iter ∧ l = { k with iter := val }) ∨
      ∃ x i, reg = .word x i ∧ l = k.writeWindow limbs x i val := by
  cases h
  case iter => exact .inr (.inl ⟨rfl, rfl⟩)
  case word x i => exact .inr (.inr ⟨x, i, rfl, rfl⟩)
  all_goals exact .inl ⟨rfl, rfl, rfl, rfl⟩

/-- Settles O42: of everything a step can do, only a reset and the host's write of ITER or of an operand
word reach these registers. -/
theorem onlyHostOrResetChangesOperands : Obligations.OnlyHostOrResetChangesOperands := by
  intro s t hstep
  rcases step_cases hstep with
    ⟨hm, hc, -⟩ | ⟨-, hc, hf⟩ | ⟨hb, hc, -⟩ | ⟨off, val, ops, reg, hp, hp', hacc, hm, hc, -⟩ <;>
    refine ⟨hc, fun hne => ?_⟩
  · exact absurd hm.sameOperands hne
  · exact .inl hf
  · exact absurd (hb ▸ Block.SameOperands.refl s.block) hne
  · obtain ⟨hoff, h256⟩ := access_offset hacc
    refine .inr ⟨off, val, ops, hp, hp', ?_⟩
    rcases hm.operands_cases with hsame | ⟨rfl, hl⟩ | ⟨x, i, rfl, hl⟩
    · exact absurd hsame hne
    · exact .inl ⟨hoff, hl⟩
    · rcases Block.writeWindow_cases s.config.limbs x i val s.block with hw | ⟨hi, hw⟩
      · exact absurd (hl.trans hw ▸ Block.SameOperands.refl s.block) hne
      · refine .inr ⟨i, hi, h256 x i rfl, ?_⟩
        rw [hl]
        rcases hw with ⟨rfl, hw⟩ | ⟨rfl, hw⟩ | ⟨rfl, hw⟩
        · exact .inl ⟨hoff, hw⟩
        · exact .inr (.inl ⟨hoff, hw⟩)
        · exact .inr (.inr ⟨hoff, hw⟩)

/-! ### The STATUS word -/

/-- `Block.status` at the width its parts add up to, which the laws of `++` for bits match. -/
theorem Block.status_getLsbD (k : Block) (i : Nat) :
    k.status.getLsbD i =
      (0#12 ++ k.st.code ++ 0#4 ++ k.errCode.code ++ 0#4 ++ BitVec.ofBool k.ovr ++
        BitVec.ofBool k.err ++ BitVec.ofBool k.done ++ BitVec.ofBool k.busy).getLsbD i := rfl

/-- `Block.status` at the width its parts add up to, which the laws of `++` for fields match. -/
theorem Block.status_extractLsb' (k : Block) (start len : Nat) :
    k.status.extractLsb' start len =
      (0#12 ++ k.st.code ++ 0#4 ++ k.errCode.code ++ 0#4 ++ BitVec.ofBool k.ovr ++
        BitVec.ofBool k.err ++ BitVec.ofBool k.done ++ BitVec.ofBool k.busy).extractLsb' start len := rfl

/-- The flags of STATUS stand in bits 3:0 (R25). -/
theorem Block.status_flags (k : Block) :
    k.status.getLsbD 0 = k.busy ∧ k.status.getLsbD 1 = k.done ∧ k.status.getLsbD 2 = k.err ∧
      k.status.getLsbD 3 = k.ovr := by
  simp only [Block.status_getLsbD, BitVec.getLsbD_append]
  simp

/-- ERR_CODE and STATE stand in bits 11:8 and 19:16 of STATUS; bits 7:4, 15:12 and 31:20 are 0 (R25). -/
theorem Block.status_fields (k : Block) :
    k.status.extractLsb' 4 4 = 0 ∧ k.status.extractLsb' 8 4 = k.errCode.code ∧
      k.status.extractLsb' 12 4 = 0 ∧ k.status.extractLsb' 16 4 = k.st.code ∧
      k.status.extractLsb' 20 12 = 0 := by
  simp (disch := decide) only [Block.status_extractLsb', BitVec.extractLsb'_append_eq_of_le]
  exact ⟨BitVec.extractLsb'_append_eq_right, BitVec.extractLsb'_append_eq_right,
    BitVec.extractLsb'_append_eq_right, BitVec.extractLsb'_append_eq_right, BitVec.extractLsb'_eq_self⟩

/-- NONE alone has the code 0 (R200). -/
theorem ErrCode.code_ne_zero_iff (c : ErrCode) : c.code ≠ 0 ↔ c ≠ .noError := by
  cases c <;> decide

/-- Settles O21: the flags and fields stand in their places, and the codes are the tables' (R40, R200). -/
theorem statusWordViews : Obligations.StatusWordViews := by
  intro s
  obtain ⟨hbusy, hdone, herr, hovr⟩ := s.block.status_flags
  obtain ⟨h4, hcode, h12, hst, h20⟩ := s.block.status_fields
  simp only [readReg, hbusy, hdone, herr, hovr, h4, hcode, h12, hst, h20, Block.busy_iff, Block.err_iff,
    ErrCode.code_ne_zero_iff, true_and, and_true]
  constructor
  · cases s.block.errCode <;> decide
  · cases s.block.st <;> decide

end Sys2Proof.Machine

/-! PROOFS. The host's register port as the memory of the system: which accesses stop the run (O26, O27,
O43), what reads and writes do (O5, O24, O25), the order of limbs and bytes (O28), and what the engine
shares with it (O40, O41). -/

namespace Sys2Proof.Machine

/-! ### One host transaction -/

section HostTransactions

variable {width off : Nat} {reg : Reg} {f : Fault}

theorem hostStep_rd_of_access (h : access width off = .ok reg) (s : State) :
    hostStep (.rd width off) s = .next { s with received := readReg s reg :: s.received } := by
  simp only [hostStep, h]

theorem hostStep_wr_of_access (h : access width off = .ok reg) (x : Word) (s : State) :
    hostStep (.wr width off x) s = writeReg reg x s := by
  simp only [hostStep, h]

/-- A poll is the read at its offset, and goes back to the program unless the value matches (R98). -/
theorem hostStep_poll_of_access (h : access 4 off = .ok reg) (mask val : Word) (s : State) :
    hostStep (.poll off mask val) s = .next { s with
      received := readReg s reg :: s.received
      program := if readReg s reg &&& mask = val then s.program
        else .poll off mask val :: s.program } := by
  simp only [hostStep, h]
  split <;> rfl

theorem hostStep_rd_of_error (h : access width off = .error f) (s : State) :
    hostStep (.rd width off) s = .fault f := by
  simp only [hostStep, h]

theorem hostStep_wr_of_error (h : access width off = .error f) (x : Word) (s : State) :
    hostStep (.wr width off x) s = .fault f := by
  simp only [hostStep, h]

theorem hostStep_poll_of_error (h : access 4 off = .error f) (mask val : Word) (s : State) :
    hostStep (.poll off mask val) s = .fault f := by
  simp only [hostStep, h]

/-! A read or a poll answers a next state only at a mapped register. -/

theorem access_of_rd_next {s t : State} (h : hostStep (.rd width off) s = .next t) :
    ∃ reg, access width off = .ok reg := by
  cases hacc : access width off with
  | ok reg => exact ⟨reg, rfl⟩
  | error f => rw [hostStep_rd_of_error hacc] at h; cases h

theorem access_of_poll_next {mask val : Word} {s t : State}
    (h : hostStep (.poll off mask val) s = .next t) : ∃ reg, access 4 off = .ok reg := by
  cases hacc : access 4 off with
  | ok reg => exact ⟨reg, rfl⟩
  | error f => rw [hostStep_poll_of_error hacc] at h; cases h

end HostTransactions

/-! ### Which accesses stop the run -/

/-- Inside the register space, an access that reaches no register is a bus error (R74). -/
theorem access_eq_busError {width off : Nat} (hoff : off < 0x2000)
    (h : ¬∃ reg, access width off = .ok reg) : access width off = .error (.busError off) := by
  cases hacc : access width off with
  | ok reg => exact absurd ⟨reg, hacc⟩ h
  | error f => rw [access_error hoff hacc]

/-- Outside the register space, every access stops the run (entry 7). -/
theorem access_outside (width : Nat) {off : Nat} (hoff : 0x2000 ≤ off) :
    access width off = .error (.outsideRegisterSpace off) := if_pos hoff

/-- Settles O26: the grounds for a bus error are the complement of the legal accesses. -/
theorem busErrorExactlyOnIllegalAccess : Obligations.BusErrorExactlyOnIllegalAccess := by
  intro s width off x mask val hoff
  have hlegal := access_ok_iff width off
  refine ⟨fun hbad => ?_, fun hgood => ?_⟩
  · have hacc : access width off = .error (.busError off) :=
      access_eq_busError hoff fun h => by have := hlegal.mp h; omega
    exact ⟨hostStep_rd_of_error hacc s, hostStep_wr_of_error hacc x s,
      fun hw => hostStep_poll_of_error (hw ▸ hacc) mask val s⟩
  · obtain ⟨reg, hacc⟩ := hlegal.mpr (by omega)
    obtain rfl : width = 4 := by omega
    exact ⟨⟨_, hostStep_rd_of_access hacc s⟩, hostStep_wr_of_access hacc x s ▸ writeReg_next reg x s,
      ⟨_, hostStep_poll_of_access hacc mask val s⟩⟩

/-- Settles O27: all three transactions are answered with what the access is. -/
theorem accessOutsideRegisterSpaceStops : Obligations.AccessOutsideRegisterSpaceStops :=
  fun s width _ x mask val hoff =>
    ⟨hostStep_rd_of_error (access_outside width hoff) s,
      hostStep_wr_of_error (access_outside width hoff) x s,
      hostStep_poll_of_error (access_outside 4 hoff) mask val s⟩

/-! ### A legal program -/

/-- A legal line is answered with a next state (R73, R74). -/
theorem hostStep_next_of_legal {op : HostOp} (h : op.Legal) (s : State) :
    ∃ t, hostStep op s = .next t := by
  cases op with
  | rd width off =>
    obtain ⟨reg, hacc⟩ := h
    exact ⟨_, hostStep_rd_of_access hacc s⟩
  | wr width off x =>
    obtain ⟨reg, hacc⟩ := h
    rw [hostStep_wr_of_access hacc]
    exact writeReg_next reg x s
  | poll off mask val =>
    obtain ⟨reg, hacc⟩ := h
    exact ⟨_, hostStep_poll_of_access hacc mask val s⟩

/-- A host step leaves the rest of the program, or puts its own line back at the head (R98). -/
theorem hostStep_program {op : HostOp} {s t : State} (h : hostStep op s = .next t) :
    t.program = s.program ∨ t.program = op :: s.program := by
  rcases hostStep_cases h with ⟨-, -, -, -, -, -, hp⟩ | ⟨_, _, _, -, -, hw⟩
  · exact hp
  · obtain ⟨-, hp, -⟩ := writeReg_environment hw
    exact .inl hp

/-- The engine does not touch the host's program. -/
theorem engineTurn_program (s : State) : (engineTurn s).program = s.program := by
  unfold engineTurn
  cases h : s.engineStep with
  | none => rfl
  | some t =>
    obtain ⟨-, -, hp, -⟩ := State.engineStep_move h
    exact hp

/-- The host's turn on a legal program. -/
theorem hostTurn_next_of_legal {s : State} (h : ∀ op ∈ s.program, op.Legal) :
    ∃ t, hostTurn s = .next t ∧ ∀ op ∈ t.program, op.Legal := by
  unfold hostTurn
  split
  · exact ⟨s, rfl, h⟩
  · next op ops hp =>
    rw [hp] at h
    have hops : ∀ op' ∈ ops, op'.Legal := (List.forall_mem_cons.mp h).2
    obtain ⟨t, ht⟩ := hostStep_next_of_legal (h op List.mem_cons_self) { s with program := ops }
    refine ⟨t, ht, ?_⟩
    rcases hostStep_program ht with hp' | hp' <;> rw [hp']
    · exact hops
    · exact h

/-- Settles O43: only the host's turn can stop the run or change the program. -/
theorem legalProgramNeverStops : Obligations.LegalProgramNeverStops := by
  intro s h
  unfold step takeTurn
  split
  · exact hostTurn_next_of_legal h
  · exact ⟨_, rfl, by rw [engineTurn_program]; exact h⟩
  · exact ⟨_, rfl, h⟩
  · split
    · next t ht =>
      obtain ⟨-, -, hp, -⟩ := State.engineStep_move ht
      exact ⟨t, rfl, hp ▸ h⟩
    · exact hostTurn_next_of_legal h

/-! ### Writes -/

/-- A write that decodes to an instruction runs it (R93, R183). -/
theorem hostStep_wr_of_decodeWrite {off : Nat} {x : Word} {i : Instr} (h : decodeWrite off x = .ok i)
    (s : State) : hostStep (.wr 4 off x) s = exec i s := by
  unfold decodeWrite at h
  split at h
  · next hoff =>
    subst hoff
    show writeCmd x s = exec i s
    simp only [writeCmd, h]
  · split at h
    · next hoff =>
      subst hoff
      show writeCtrl x s = exec i s
      simp only [writeCtrl, h]
    · cases h

/-- Settles O5: either way to the host's turn runs its next line. -/
theorem stepRunsDecodedInstruction : Obligations.StepRunsDecodedInstruction := by
  intro s off x i ops hp hi
  refine ⟨fun ts hs => ?_, fun hs he => ?_⟩
  · rw [step_host_line hs hp, hostStep_wr_of_decodeWrite hi]
  · rw [step_host_idle hs he, hostTurn, hp]
    exact hostStep_wr_of_decodeWrite hi _

/-- A write of a word of a window (R181). -/
theorem hostStep_wr_word (w : Window) {i : Nat} (hi : i < 256) (x : Word) (s : State) :
    hostStep (.wr 4 (w.base + 4 * i) x) s =
      .next { s with block := s.block.writeWindow s.config.limbs w i x } :=
  hostStep_wr_of_access (access_word w hi) x s

/-- A write below `L` stores the word (R181). -/
theorem limbWrite_below {limbs i : Nat} (ws : List Word) (x : Word) (hi : i < limbs) :
    limbWrite limbs ws i x = ws.set i x := if_pos hi

/-- A write of a window's word at `L` or above is ignored (R37). -/
theorem Block.writeWindow_above {limbs i : Nat} (w : Window) (x : Word) (k : Block)
    (hi : limbs ≤ i) : k.writeWindow limbs w i x = k := by
  cases w <;> simp only [Block.writeWindow, limbWrite_above _ _ _ hi]

/-- Settles O25: the control registers by the register map, the windows by the write of their word. -/
theorem writeStoresOperandsOnly : Obligations.WriteStoresOperandsOnly := by
  intro s x
  refine ⟨?_, rfl, fun i hi => ⟨hostStep_wr_word .result hi x s, hostStep_wr_word .witness hi x s,
    fun hlt => ?_, fun hle => ?_⟩⟩
  · rintro off (rfl | rfl | rfl | rfl | rfl) <;> rfl
  · have hstore := fun ws : List Word => limbWrite_below ws x hlt
    rw [← hstore, ← hstore, ← hstore]
    exact ⟨hostStep_wr_word .a hi x s, hostStep_wr_word .d hi x s, hostStep_wr_word .n hi x s⟩
  · have hignored (w : Window) : hostStep (.wr 4 (w.base + 4 * i) x) s = .next s := by
      rw [hostStep_wr_word w hi, Block.writeWindow_above w x _ hle]
    exact ⟨hignored .a, hignored .d, hignored .n⟩

/-! ### Reads -/

/-- What a register reads does not depend on the data received so far (R75). -/
@[simp] theorem readReg_received (s : State) (received : List Word) (reg : Reg) :
    readReg { s with received := received } reg = readReg s reg := by
  cases reg <;> rfl

/-- Settles O24: a read and a poll reach a register, and the register reads the same afterwards. -/
theorem readsHaveNoSideEffects : Obligations.ReadsHaveNoSideEffects := by
  refine ⟨fun s t width off h => ?_, fun _ => rfl, fun s t off mask val h => ?_⟩
  · obtain ⟨reg, hacc⟩ := access_of_rd_next h
    rw [hostStep_rd_of_access hacc] at h
    cases h
    exact ⟨_, rfl, by simp only [hostStep_rd_of_access hacc, readReg_received]⟩
  · obtain ⟨reg, hacc⟩ := access_of_poll_next h
    rw [hostStep_poll_of_access hacc] at h
    cases h
    exact ⟨_, rfl, hostStep_rd_of_access hacc s⟩

/-! ### Limbs and bytes -/

/-- A limb of a window is its slice of the window's value (R72). -/
theorem getD_toNat_eq_win_slice (ws : List Word) {i : Nat} (hi : i < ws.length) :
    (ws.getD i 0).toNat = win ws / 2 ^ (32 * i) % 2 ^ 32 := by
  have hlimb := toLimbs_getD ws.length (win ws) i hi
  rw [toLimbs_win] at hlimb
  rw [hlimb, BitVec.toNat_ofNat]

/-- The byte `k` places above a register's address is byte `k` of the word it reads (R72). -/
theorem byteAt_effectiveAddress {off k : Nat} {reg : Reg} (s : State)
    (hacc : access 4 off = .ok reg) (hk : k < 4) :
    byteAt s (effectiveAddress s.config off + k) =
      some ((readReg s reg).extractLsb' (8 * k) 8) := by
  obtain ⟨-, halign, -⟩ := (access_ok_iff 4 off).mp ⟨reg, hacc⟩
  have hoff : effectiveAddress s.config off + k - s.config.base = off + k := by
    unfold effectiveAddress; omega
  have hplace : (off + k) % 4 = k := by omega
  unfold byteAt
  rw [if_neg (by unfold effectiveAddress; omega)]
  simp only [hoff, hplace, Nat.add_sub_cancel, hacc]

/-- Settles O28. -/
theorem limbAndByteOrder : Obligations.LimbAndByteOrder :=
  ⟨fun ws _ hi => getD_toNat_eq_win_slice ws hi,
    fun s _ _ _ hacc hk => byteAt_effectiveAddress s hacc hk⟩

/-! ### The result registers -/

theorem Block.SameResults.refl (k : Block) : k.SameResults k := ⟨rfl, rfl, rfl, rfl, rfl⟩

/-- An engine step leaves the results alone, or ends the command with DONE and without an error of its
own (R116, R148, R202). -/
theorem Block.EngineMove.results_cases {limbs : Nat} {k l : Block} (h : Block.EngineMove limbs k l) :
    k.SameResults l ∨
      (k.st ≠ .idle ∧ l.st = .idle ∧ l.done = true ∧ l.errCode = k.errCode) := by
  cases h
  case pmEnd hst he => exact .inr ⟨by simp [hst], rfl, rfl, rfl⟩
  case checkSmall hst hn => exact .inr ⟨by simp [hst], rfl, rfl, rfl⟩
  case checkEven hst hn heven => exact .inr ⟨by simp [hst], rfl, rfl, rfl⟩
  case allPassed hst ht => exact .inr ⟨by simp [hst], rfl, rfl, rfl⟩
  case squareToOne hst hj hy h1 => exact .inr ⟨by simp [hst], rfl, rfl, rfl⟩
  case chainEnd hst hj hy => exact .inr ⟨by simp [hst], rfl, rfl, rfl⟩
  all_goals exact .inl (Block.SameResults.refl k)

/-- No host write but SRST reaches the results (R76, R181). -/
theorem Block.HostMove.sameResults {limbs : Nat} {val : Word} {reg : Reg} {k l : Block}
    (h : Block.HostMove limbs val k reg l) : k.SameResults l := by
  cases h
  case word x i => cases x <;> exact Block.SameResults.refl k
  all_goals exact Block.SameResults.refl k

/-- Settles O40: only an ending engine step and a reset reach the results, and a running command holds no
error code. -/
theorem resultsChangeOnlyAtSuccess : Obligations.ResultsChangeOnlyAtSuccess := by
  intro s t hstatus hstep hne
  rcases step_cases hstep with ⟨hm, -⟩ | ⟨-, -, hf⟩ | ⟨hb, -⟩ | ⟨_, _, _, _, -, -, -, hm, -⟩
  · rcases hm.results_cases with hsame | ⟨hbusy, hidle, hdone, herr⟩
    · exact absurd hsame hne
    · have hnone : s.block.errCode = .noError := (hstatus.2 (s.block.busy_iff.mpr hbusy)).2
      exact .inr ⟨hbusy, hidle, hdone, herr.trans hnone⟩
  · exact .inl hf
  · exact absurd (hb ▸ Block.SameResults.refl s.block) hne
  · exact absurd hm.sameResults hne

/-! ### The engine and the operand registers -/

/-- The operand registers of a block replaced: the block's part of `State.withOperands`. -/
def Block.withOperands (a d n : List Word) (iter : Word) (k : Block) : Block :=
  { k with winA := a, winD := d, winN := n, iter := iter }

theorem State.withOperands_block (s : State) (a d n : List Word) (iter : Word) :
    (s.withOperands a d n iter).block = s.block.withOperands a d n iter := rfl

section WithOperands

variable (a d n : List Word) (iter : Word) (limbs : Nat) (k : Block)

/-! Each step of the sequencer branches on the working registers and `rnd_bound` alone and writes no
operand register, so replacing the operands goes through its branches (R85). -/

theorem Block.pmLoopStep_withOperands : (k.withOperands a d n iter).pmLoopStep limbs =
    (k.pmLoopStep limbs).withOperands a d n iter := by
  simp only [Block.pmLoopStep, apply_ite (Block.withOperands a d n iter)]
  rfl

theorem Block.mrCheckStep_withOperands : (k.withOperands a d n iter).mrCheckStep limbs =
    (k.mrCheckStep limbs).withOperands a d n iter := by
  simp only [Block.mrCheckStep, apply_ite (Block.withOperands a d n iter)]
  rfl

theorem Block.mrDecompStep_withOperands : (k.withOperands a d n iter).mrDecompStep =
    k.mrDecompStep.withOperands a d n iter := by
  simp only [Block.mrDecompStep, apply_ite (Block.withOperands a d n iter)]
  rfl

theorem Block.mrNextStep_withOperands : (k.withOperands a d n iter).mrNextStep limbs =
    (k.mrNextStep limbs).withOperands a d n iter := by
  simp only [Block.mrNextStep, apply_ite (Block.withOperands a d n iter)]
  rfl

theorem Block.mrDrawStep_withOperands (u : Nat) : (k.withOperands a d n iter).mrDrawStep u =
    (k.mrDrawStep u).withOperands a d n iter := by
  simp only [Block.mrDrawStep, apply_ite (Block.withOperands a d n iter)]
  rfl

theorem Block.mrPowStep_withOperands : (k.withOperands a d n iter).mrPowStep =
    k.mrPowStep.withOperands a d n iter := by
  simp only [Block.mrPowStep, apply_ite (Block.withOperands a d n iter)]
  rfl

theorem Block.mrChainStep_withOperands : (k.withOperands a d n iter).mrChainStep limbs =
    (k.mrChainStep limbs).withOperands a d n iter := by
  simp only [Block.mrChainStep, apply_ite (Block.withOperands a d n iter)]
  rfl

theorem Block.engineStep_withOperands : (k.withOperands a d n iter).engineStep limbs =
    (k.engineStep limbs).map (Block.withOperands a d n iter) := by
  have hst : (k.withOperands a d n iter).st = k.st := rfl
  unfold Block.engineStep
  rw [hst]
  cases k.st with
  | idle => rfl
  | pmLoop => exact congrArg some (k.pmLoopStep_withOperands a d n iter limbs)
  | mrCheck => exact congrArg some (k.mrCheckStep_withOperands a d n iter limbs)
  | mrDecomp => exact congrArg some (k.mrDecompStep_withOperands a d n iter)
  | mrNext => exact congrArg some (k.mrNextStep_withOperands a d n iter limbs)
  | mrDraw => rfl
  | mrPow => exact congrArg some (k.mrPowStep_withOperands a d n iter)
  | mrChain => exact congrArg some (k.mrChainStep_withOperands a d n iter limbs)

end WithOperands

/-- Settles O41: with or without an answer consumed, the engine's step is the block's. -/
theorem engineIgnoresOperandRegisters : Obligations.EngineIgnoresOperandRegisters := by
  intro s a d n iter
  by_cases hdraw : s.block.st = .mrDraw
  · have hdraw' : (s.withOperands a d n iter).block.st = .mrDraw := hdraw
    cases ha : s.answers with
    | nil =>
      rw [State.engineStep_draw_nil hdraw ha, State.engineStep_draw_nil hdraw' ha]
      rfl
    | cons u us =>
      rw [State.engineStep_draw_cons hdraw ha, State.engineStep_draw_cons hdraw' ha,
        State.withOperands_block, Block.mrDrawStep_withOperands]
      rfl
  · have hdraw' : (s.withOperands a d n iter).block.st ≠ .mrDraw := hdraw
    rw [State.engineStep_of_ne_draw hdraw, State.engineStep_of_ne_draw hdraw',
      State.withOperands_block, Block.engineStep_withOperands, Option.map_map, Option.map_map]
    rfl

end Sys2Proof.Machine

/-! PROOFS. The encodings: decoder and encoder are inverse to each other (O1, O3, O4), the legal command
words (O2), and the placed table word (O6). -/

namespace Sys2Proof

/-! ### The word of a command -/

/-- A command word is a zero RSVD field over its opcode (R90). -/
theorem eq_zero_append_iff (c : Word) (o : BitVec 8) :
    c = 0#24 ++ o ↔ c.extractLsb' 8 24 = 0 ∧ c.extractLsb' 0 8 = o := by
  constructor
  · rintro rfl
    exact ⟨BitVec.extractLsb'_append_eq_left, BitVec.extractLsb'_append_eq_right⟩
  · rintro ⟨hrsvd, rfl⟩
    show c = (0 : BitVec 24) ++ c.extractLsb' 0 8
    rw [← hrsvd]
    exact (BitVec.extractLsb'_append_extractLsb' (w := 24) (len := 8)).symm

/-- Three words are accepted, one for each command; every other one is illegal (R91, R96, R97). -/
theorem decodeCmd_cases (c : Word) :
    (c = 1 ∧ decodeCmd c = .ok .powmod) ∨ (c = 2 ∧ decodeCmd c = .ok .mrTest) ∨
      (c = 3 ∧ decodeCmd c = .ok .mrTrial) ∨
      (c ≠ 1 ∧ c ≠ 2 ∧ c ≠ 3 ∧ decodeCmd c = .error .illegalCommand) := by
  have hopcode (h0 : ¬c.extractLsb' 8 24 ≠ 0) (o : BitVec 8)
      (ho : (c.extractLsb' 0 8).toNat = o.toNat) : c = 0#24 ++ o :=
    (eq_zero_append_iff c o).mpr ⟨not_not.mp h0, BitVec.eq_of_toNat_eq ho⟩
  by_cases h1 : c = 1
  · exact .inl ⟨h1, h1 ▸ rfl⟩
  by_cases h2 : c = 2
  · exact .inr (.inl ⟨h2, h2 ▸ rfl⟩)
  by_cases h3 : c = 3
  · exact .inr (.inr (.inl ⟨h3, h3 ▸ rfl⟩))
  refine .inr (.inr (.inr ⟨h1, h2, h3, ?_⟩))
  unfold decodeCmd
  split
  · rfl
  · next h0 =>
    split
    · next ho => exact absurd (hopcode h0 1 ho) h1
    · next ho => exact absurd (hopcode h0 2 ho) h2
    · next ho => exact absurd (hopcode h0 3 ho) h3
    · rfl

/-- Settles O2: both directions are read off the four cases of a word. -/
theorem commandWordsAreExactlyThree : Obligations.CommandWordsAreExactlyThree := by
  intro c i
  rcases decodeCmd_cases c with ⟨rfl, hd⟩ | ⟨rfl, hd⟩ | ⟨rfl, hd⟩ | ⟨h1, h2, h3, hd⟩
  · rw [hd]; simp [eq_comm]
  · rw [hd]; simp [eq_comm]
  · rw [hd]; simp [eq_comm]
  · rw [hd]
    refine ⟨⟨nofun, ?_⟩, fun _ _ _ => rfl⟩
    rintro (⟨rfl, -⟩ | ⟨rfl, -⟩ | ⟨rfl, -⟩) <;> contradiction

/-! ### The word of a CTRL action -/

/-- A CTRL word from its fields (R24). -/
def ctrlWord (ignored : BitVec 29) (srst abort irqEn : Bool) : Word :=
  ignored ++ BitVec.ofBool srst ++ BitVec.ofBool abort ++ BitVec.ofBool irqEn

theorem encodeWord_abort (irqEn : Bool) (ignored : BitVec 29) :
    encodeWord (.abort irqEn ignored) = ctrlWord ignored false true irqEn := rfl

theorem encodeWord_srst (irqEn abort : Bool) (ignored : BitVec 29) :
    encodeWord (.srst irqEn abort ignored) = ctrlWord ignored true abort irqEn := rfl

/-- `ctrlWord` at the width its parts add up to, which the laws of `++` for bits match. -/
theorem ctrlWord_getLsbD (ignored : BitVec 29) (srst abort irqEn : Bool) (i : Nat) :
    (ctrlWord ignored srst abort irqEn).getLsbD i =
      (ignored ++ BitVec.ofBool srst ++ BitVec.ofBool abort ++ BitVec.ofBool irqEn).getLsbD i := rfl

/-- The action bits and IRQ_EN of a CTRL word read back (R24). -/
theorem ctrlWord_bits (ignored : BitVec 29) (srst abort irqEn : Bool) :
    (ctrlWord ignored srst abort irqEn).getLsbD 0 = irqEn ∧
      (ctrlWord ignored srst abort irqEn).getLsbD 1 = abort ∧
      (ctrlWord ignored srst abort irqEn).getLsbD 2 = srst := by
  simp only [ctrlWord_getLsbD, BitVec.getLsbD_append]
  simp

/-- The ignored bits of a CTRL word read back (R24). -/
theorem ctrlWord_ignored (ignored : BitVec 29) (srst abort irqEn : Bool) :
    (ctrlWord ignored srst abort irqEn).extractLsb' 3 29 = ignored := by
  show (ignored ++ BitVec.ofBool srst ++ BitVec.ofBool abort ++ BitVec.ofBool irqEn).extractLsb'
    3 29 = ignored
  simp (disch := decide) only [BitVec.extractLsb'_append_eq_of_le]
  exact BitVec.extractLsb'_eq_self

/-- A word is the CTRL word of its fields: they cover all 32 bits. -/
theorem ctrlWord_of_fields (x : Word) :
    ctrlWord (x.extractLsb' 3 29) (x.getLsbD 2) (x.getLsbD 1) (x.getLsbD 0) = x := by
  have hbit (i : Nat) : BitVec.ofBool (x.getLsbD i) = x.extractLsb' i 1 := by
    rw [BitVec.getLsbD_eq_extractLsb']
    rcases BitVec.eq_zero_or_eq_one (x.extractLsb' i 1) with h | h <;> rw [h] <;> rfl
  unfold ctrlWord
  rw [hbit, hbit, hbit, BitVec.extractLsb'_append_extractLsb'_eq_extractLsb' (rfl : 3 = 2 + 1),
    BitVec.extractLsb'_append_extractLsb'_eq_extractLsb' (rfl : 2 = 1 + 1),
    BitVec.extractLsb'_append_extractLsb'_eq_extractLsb' (rfl : 1 = 0 + 1)]
  exact BitVec.extractLsb'_eq_self

/-- SRST wins over ABORT (R183). -/
theorem decodeCtrl_ctrlWord (ignored : BitVec 29) (srst abort irqEn : Bool) :
    decodeCtrl (ctrlWord ignored srst abort irqEn) =
      if srst then .ok (.srst irqEn abort ignored)
      else if abort then .ok (.abort irqEn ignored)
      else .error .noControlAction := by
  obtain ⟨h0, h1, h2⟩ := ctrlWord_bits ignored srst abort irqEn
  simp only [decodeCtrl, h0, h1, h2, ctrlWord_ignored]

/-! ### Decoding and encoding -/

/-- A word from its four bytes (R72). -/
theorem wordOfBytes_extract (x : Word) :
    wordOfBytes (x.extractLsb' 0 8) (x.extractLsb' 8 8) (x.extractLsb' 16 8) (x.extractLsb' 24 8) =
      x := by
  unfold wordOfBytes
  rw [BitVec.extractLsb'_append_extractLsb'_eq_extractLsb' (rfl : 24 = 16 + 8),
    BitVec.extractLsb'_append_extractLsb'_eq_extractLsb' (rfl : 16 = 8 + 8),
    BitVec.extractLsb'_append_extractLsb'_eq_extractLsb' (rfl : 8 = 0 + 8)]
  exact BitVec.extractLsb'_eq_self

theorem decodeWrite_cmd (x : Word) : decodeWrite cmdOffset x = decodeCmd x := rfl

theorem decodeWrite_ctrl (x : Word) : decodeWrite ctrlOffset x = decodeCtrl x := rfl

/-- The decoder undoes the encoder. -/
theorem decodeWrite_encode (i : Instr) : decodeWrite (encodeOffset i) (encodeWord i) = .ok i := by
  cases i with
  | powmod => rfl
  | mrTest => rfl
  | mrTrial => rfl
  | abort irqEn ignored =>
    rw [encodeOffset, decodeWrite_ctrl, encodeWord_abort, decodeCtrl_ctrlWord]
    rfl
  | srst irqEn abort ignored =>
    rw [encodeOffset, decodeWrite_ctrl, encodeWord_srst, decodeCtrl_ctrlWord]
    rfl

/-- The bytes of an instruction decode as its word does (R72). -/
theorem decodeBytes_encodeBytes (off : Nat) (i : Instr) :
    decodeBytes off (encodeBytes i) = decodeWrite off (encodeWord i) :=
  congrArg (decodeWrite off) (wordOfBytes_extract (encodeWord i))

/-- Settles O3: instruction by instruction for the word, which the bytes give back. -/
theorem decodeOfEncode : Obligations.DecodeOfEncode :=
  fun i _ => ⟨decodeWrite_encode i, (decodeBytes_encodeBytes _ i).trans (decodeWrite_encode i)⟩

/-- A command word is the encoding of what it decodes to. -/
theorem encode_of_decodeCmd {x : Word} {i : Instr} (h : decodeCmd x = .ok i) :
    encode i = (cmdOffset, x) := by
  rcases decodeCmd_cases x with ⟨rfl, hd⟩ | ⟨rfl, hd⟩ | ⟨rfl, hd⟩ | ⟨-, -, -, hd⟩ <;>
    rw [hd] at h <;> cases h
  all_goals rfl

/-- A CTRL word with an action is the encoding of what it decodes to. -/
theorem encode_of_decodeCtrl {x : Word} {i : Instr} (h : decodeCtrl x = .ok i) :
    encode i = (ctrlOffset, x) := by
  have hx := ctrlWord_of_fields x
  unfold decodeCtrl at h
  split at h
  · next h2 =>
    cases h
    rw [h2] at hx
    exact Prod.ext rfl ((encodeWord_srst _ _ _).trans hx)
  · next h2 =>
    split at h
    · next h1 =>
      cases h
      rw [Bool.eq_false_iff.mpr h2, h1] at hx
      exact Prod.ext rfl ((encodeWord_abort _ _).trans hx)
    · cases h

/-- Settles O4: the fields of each register's word cover all its bits. -/
theorem encodeOfDecode : Obligations.EncodeOfDecode := by
  intro off x i h
  unfold decodeWrite at h
  split at h
  · next hoff => exact hoff ▸ encode_of_decodeCmd h
  · split at h
    · next hoff => exact hoff ▸ encode_of_decodeCtrl h
    · cases h

/-- Settles O1: the decoder evaluated on each word. -/
theorem writtenWordsDecode : Obligations.WrittenWordsDecode :=
  ⟨rfl, rfl, rfl, rfl, rfl, rfl, rfl, rfl, rfl, rfl⟩

/-! ### A placed table word -/

/-- A table word decodes as the write it stands for (entry 9). -/
theorem decodeWrite_of_decodeTableWord {nbits w : Nat} {i : Instr}
    (h : decodeTableWord nbits w = some i) :
    decodeWrite (tableWrite nbits w).1 (tableWrite nbits w).2 = .ok i := by
  unfold decodeTableWord at h
  split at h
  · split at h
    · next hd => rw [hd, Option.some.inj h]
    · cases h
  · cases h

end Sys2Proof

namespace Sys2Proof.Machine

/-- Settles O6: the placed write is the host's next line, on the host's named turn. -/
theorem placedTableWordRuns : Obligations.PlacedTableWordRuns := by
  intro s nbits w i h
  rw [step_host_line (s := s.withFetchWord nbits w) rfl rfl]
  exact hostStep_wr_of_decodeWrite (decodeWrite_of_decodeTableWord h) s

end Sys2Proof.Machine

/-! PROOFS. Submitting a command: the checks in their order (O9), OVR (O15), and what a submission leaves
unchanged (O16). -/

namespace Sys2Proof.Machine

/-! ### The checks of a write to CMD -/

/-- A write to CMD while a command runs only sets OVR (R94). -/
theorem writeCmd_busy {s : State} (h : s.block.st ≠ .idle) (c : Word) :
    writeCmd c s = .next { s with block := { s.block with ovr := true } } := by
  rcases decodeCmd_cases c with ⟨-, hd⟩ | ⟨-, hd⟩ | ⟨-, hd⟩ | ⟨-, -, -, hd⟩ <;>
    simp only [writeCmd, hd, exec, execPowmod, execMrTest, execMrTrial, Block.submit_busy h]

/-- A submission with one check, while IDLE (R93). -/
theorem Block.submit_checked {k : Block} (h : k.st = .idle) (p : Prop) [Decidable p] (c : ErrCode)
    (started : Block) :
    k.submit (if p then some c else none) started = if p then k.fail c else started := by
  split
  · exact Block.submit_error h c started
  · exact Block.submit_started h started

/-- A word that is no command word breaks one of the two checks on its fields (R93, R97). -/
theorem illegal_fields {c : Word} (h1 : c ≠ 1) (h2 : c ≠ 2) (h3 : c ≠ 3) :
    c.extractLsb' 8 24 ≠ 0 ∨
      ¬(c.extractLsb' 0 8 = 0x01 ∨ c.extractLsb' 0 8 = 0x02 ∨ c.extractLsb' 0 8 = 0x03) := by
  by_cases h0 : c.extractLsb' 8 24 = 0
  · refine .inr ?_
    rintro (ho | ho | ho)
    · exact h1 ((eq_zero_append_iff c 1).mpr ⟨h0, ho⟩)
    · exact h2 ((eq_zero_append_iff c 2).mpr ⟨h0, ho⟩)
    · exact h3 ((eq_zero_append_iff c 3).mpr ⟨h0, ho⟩)
  · exact .inl h0

/-- Settles O9: the word decides between the three commands and ILLEGAL_CMD, and each command has its
own check. -/
theorem cmdWriteDecidedInOrder : Obligations.CmdWriteDecidedInOrder := by
  intro s c
  show writeCmd c s = _
  by_cases hst : s.block.st = .idle
  · rcases decodeCmd_cases c with ⟨rfl, hd⟩ | ⟨rfl, hd⟩ | ⟨rfl, hd⟩ | ⟨h1, h2, h3, hd⟩
    · simp only [writeCmd, hd, exec, execPowmod, Block.submit_checked hst]
      simp [hst]
    · simp only [writeCmd, hd, exec, execMrTest, Block.submit_checked hst]
      simp [hst]
    · simp only [writeCmd, hd, exec, execMrTrial, Block.submit_started hst]
      simp [hst]
    · rw [if_neg (not_not.mpr hst), if_pos (illegal_fields h1 h2 h3)]
      simp only [writeCmd, hd, Block.submit_error hst]
  · rw [writeCmd_busy hst, if_pos hst]

/-! ### The overrun bit -/

/-- No engine step reaches OVR. -/
theorem Block.EngineMove.ovr {limbs : Nat} {k l : Block} (h : Block.EngineMove limbs k l) :
    l.ovr = k.ovr := by
  cases h <;> rfl

/-- A host write, SRST apart, keeps OVR, sets it, or is a write to STATUS (R94, R187). -/
theorem Block.HostMove.ovr_cases {limbs : Nat} {val : Word} {reg : Reg} {k l : Block}
    (h : Block.HostMove limbs val k reg l) :
    l.ovr = k.ovr ∨ l.ovr = true ∨ (reg = .status ∧ l = k.clearStatus val) := by
  cases h
  case status => exact .inr (.inr ⟨rfl, rfl⟩)
  case overrun => exact .inr (.inl rfl)
  case word x i => exact .inl (by simp)
  all_goals exact .inl rfl

/-- Settles O15: of everything a step can do, a reset and a write to STATUS alone can clear OVR. -/
theorem busyCommandOnlySetsStickyOvr : Obligations.BusyCommandOnlySetsStickyOvr := by
  refine ⟨fun s c hst => writeCmd_busy hst c, fun s t hstep hset hclear => ?_⟩
  have hne : t.block.ovr ≠ s.block.ovr := by simp [hset, hclear]
  rcases step_cases hstep with ⟨hm, -⟩ | ⟨-, -, hf⟩ | ⟨hb, -⟩ | ⟨off, val, ops, reg, hp, hp', hacc, hm, -⟩
  · exact absurd hm.ovr hne
  · exact .inl hf
  · exact absurd (congrArg Block.ovr hb) hne
  · rcases hm.ovr_cases with hkeep | hsets | ⟨rfl, hl⟩
    · exact absurd hkeep hne
    · exact absurd (hsets.trans hset.symm) hne
    · obtain ⟨rfl, -⟩ := access_offset hacc
      refine .inr ⟨val, ops, hp, hp', ?_⟩
      simpa [hl, hset] using hclear

/-! ### The frame of a submission -/

/-- A register other than STATUS reads the same when the parameters, IRQ_EN, the operands and the results
are the same (R180). -/
theorem readReg_congr {s t : State} (hconfig : t.config = s.config)
    (hirqEn : t.block.irqEn = s.block.irqEn) (hoperands : s.block.SameOperands t.block)
    (hresults : s.block.SameResults t.block) {reg : Reg} (hreg : reg ≠ .status) :
    readReg t reg = readReg s reg := by
  obtain ⟨ha, hd, hn, hiter⟩ := hoperands
  obtain ⟨hresult, hwitness, hsValue, htrials, hdraws⟩ := hresults
  cases reg with
  | status => exact absurd rfl hreg
  | word x i => cases x <;> simp only [readReg, Block.window, *]
  | _ => simp only [readReg, *]

/-- A byte is the same when the register whose word holds it reads the same (R72). -/
theorem byteAt_congr {s t : State} {a : Nat} (hconfig : t.config = s.config)
    (h : ∀ reg, s.config.base ≤ a →
      a - s.config.base - (a - s.config.base) % 4 = reg.offset → readReg t reg = readReg s reg) :
    byteAt t a = byteAt s a := by
  unfold byteAt
  rw [hconfig]
  split
  · rfl
  · next hbase =>
    cases hacc : access 4 (a - s.config.base - (a - s.config.base) % 4) with
    | ok reg =>
      obtain ⟨hoff, -⟩ := access_offset hacc
      simp only [hacc, h reg (Nat.le_of_not_lt hbase) hoff]
    | error f => simp only [hacc]

/-- A command is the write of its word to CMD (R90). -/
theorem writeReg_cmd_encodeWord {i : Instr} (h : i = .powmod ∨ i = .mrTest ∨ i = .mrTrial) (s : State) :
    writeReg .cmd (encodeWord i) s = exec i s := by
  rcases h with rfl | rfl | rfl <;> rfl

/-- A submission is a move of the block by the write of the command's word. -/
theorem exec_command_move {i : Instr} {s t : State} (hi : i = .powmod ∨ i = .mrTest ∨ i = .mrTrial)
    (h : exec i s = .next t) :
    ∃ k, Block.HostMove s.config.limbs (encodeWord i) s.block .cmd k ∧ t = { s with block := k } := by
  rw [← writeReg_cmd_encodeWord hi] at h
  rcases writeReg_move h with ⟨hctrl, -⟩ | hmove
  · cases hctrl
  · exact hmove

/-- A write to CMD reaches neither the operands, IRQ_EN and `rnd_bound` nor the working registers that no
acceptance takes (R95, R112, R133, R134). -/
theorem Block.HostMove.cmd_frame {limbs : Nat} {val : Word} {k l : Block}
    (h : Block.HostMove limbs val k .cmd l) :
    k.SameOperands l ∧ l.irqEn = k.irqEn ∧ l.rndBound = k.rndBound ∧ l.work.r = k.work.r ∧
      l.work.y = k.work.y ∧ l.work.j = k.work.j ∧ l.work.w = k.work.w := by
  cases h <;> exact ⟨Block.SameOperands.refl k, rfl, rfl, rfl, rfl, rfl, rfl⟩

/-- Settles O16: every register but STATUS reads fields that the submission does not reach. -/
theorem commandSubmissionFrame : Obligations.CommandSubmissionFrame := by
  intro i s t hi hexec
  obtain ⟨k, hm, rfl⟩ := exec_command_move hi hexec
  obtain ⟨hoperands, hirqEn, hbound, hr, hy, hj, hw⟩ := hm.cmd_frame
  have hread : ∀ reg : Reg, reg ≠ .status → readReg { s with block := k } reg = readReg s reg :=
    fun _ => readReg_congr (s := s) (t := { s with block := k }) rfl hirqEn hoperands hm.sameResults
  refine ⟨⟨rfl, rfl, rfl, rfl, rfl, rfl⟩, hoperands, hm.sameResults, hirqEn, hbound, hr, hy, hj, hw,
    hread, fun a ha => byteAt_congr rfl fun reg hbase hoff => hread reg ?_⟩
  rintro rfl
  unfold effectiveAddress at ha
  rw [Reg.offset] at hoff
  omega

end Sys2Proof.Machine

/-! PROOFS. The lines of a host program: polls (O51), the expansions of the pseudo-instructions (O52), and what
running them does (O30, O53, O54). -/

namespace Sys2Proof.Machine

/-! ### One line -/

/-- Settles O51: a poll answers what the read at its offset answers, up to its own line. -/
theorem pollReadsUntilMatch : Obligations.PollReadsUntilMatch := by
  intro s off mask val v h
  obtain ⟨reg, hacc⟩ := access_of_rd_next h
  have hv : readReg s reg = v := by
    rw [hostStep_rd_of_access hacc, Host.Outcome.next.injEq] at h
    exact (List.cons.inj (congrArg State.received h)).1
  refine ⟨fun hmatch => ?_, fun hmiss => ?_⟩
  · rw [hostStep_poll_of_access hacc, hv, if_pos hmatch]
  · rw [hostStep_poll_of_access hacc, hv, if_neg hmiss]

/-- The mask of `wait` selects DONE (R25, R99). -/
theorem Block.status_and_two (k : Block) : k.status &&& 0x00000002 = 0x00000002 ↔ k.done = true := by
  obtain ⟨-, hdone, -⟩ := k.status_flags
  have hbit := BitVec.and_twoPow k.status 1
  rw [hdone] at hbit
  show k.status &&& BitVec.twoPow 32 1 = BitVec.twoPow 32 1 ↔ _
  rw [hbit]
  cases k.done <;> decide

/-- A write of 2 to STATUS clears DONE and ERR_CODE and keeps OVR (R187). -/
theorem Block.clearStatus_two (k : Block) :
    k.clearStatus 0x00000002 = { k with done := false, errCode := .noError } := rfl

/-- Settles O53: a command's word decodes to it, `wait` polls the bit that DONE is, and `ack` writes it. -/
theorem cmdWaitAckAct : Obligations.CmdWaitAckAct := by
  intro s
  refine ⟨hostStep_wr_of_decodeWrite rfl s, hostStep_wr_of_decodeWrite rfl s,
    hostStep_wr_of_decodeWrite rfl s, ?_, ?_⟩
  · rw [waitDone, hostStep_poll_of_access (reg := .status) rfl]
    simp only [readReg, Block.status_and_two]
  · rw [ackDone, wr, hostStep_wr_of_access (reg := .status) rfl, writeReg, Block.clearStatus_two]

/-! ### The expansions -/

/-- The writes of a list of limbs, one by one. -/
theorem ldFrom_eq_map (x : Window) (i : Nat) (ws : List Word) :
    ldFrom x i ws = (List.range ws.length).map fun j => wr (x.base + 4 * (i + j)) (ws.getD j 0) := by
  induction ws generalizing i with
  | nil => rfl
  | cons w ws ih =>
    have hnext (j : Nat) : i + 1 + j = i + (j + 1) := by omega
    rw [ldFrom, ih, List.length_cons, List.range_succ_eq_map, List.map_cons, List.map_map]
    simp only [hnext, Function.comp_def, Nat.succ_eq_add_one, List.getD_cons_zero,
      List.getD_cons_succ, Nat.add_zero]

/-- `ld X, v` writes the slices of `v` (R99). -/
theorem ld_eq_map (limbs : Nat) (x : Window) (v : Nat) :
    ld limbs x v = (List.range limbs).map fun i =>
      .wr 4 (x.base + 4 * i) (BitVec.ofNat 32 (v / 2 ^ (32 * i))) := by
  rw [ld, ldFrom_eq_map, toLimbs_length]
  refine List.map_congr_left fun i hi => ?_
  rw [toLimbs_getD limbs v i (List.mem_range.mp hi), Nat.zero_add, wr]

/-- Settles O52: the writes of `ld` and the value of `rd_res` limb by limb, the rest as defined. -/
theorem pseudoInstructionsExpand : Obligations.PseudoInstructionsExpand := by
  refine ⟨fun limbs x base v hx => ?_, rfl, rfl, rfl, rfl, rfl, fun _ => rfl, fun names earlier => ?_⟩
  · obtain rfl : base = x.base := by
      rcases hx with ⟨rfl, rfl⟩ | ⟨rfl, rfl⟩ | ⟨rfl, rfl⟩ <;> rfl
    exact ld_eq_map limbs x v
  · rw [rdResValue_reverse_append, win_eq_sum]

/-! ### A window replaced -/

/-- A window's limbs replaced, everything else kept. -/
def Block.withWindow (x : Window) (ws : List Word) (k : Block) : Block :=
  match x with
  | .a => { k with winA := ws }
  | .d => { k with winD := ws }
  | .n => { k with winN := ws }
  | .result => { k with result := ws }
  | .witness => { k with witness := ws }

section WithWindow

variable (x : Window) (ws : List Word) (k : Block)

theorem Block.window_withWindow (y : Window) :
    (k.withWindow x ws).window y = if y = x then ws else k.window y := by
  cases x <;> cases y <;> rfl

@[simp] theorem Block.withWindow_withWindow (ws' : List Word) :
    (k.withWindow x ws).withWindow x ws' = k.withWindow x ws' := by cases x <;> rfl

@[simp] theorem Block.withWindow_self : k.withWindow x (k.window x) = k := by cases x <;> rfl

variable {x} (hx : x = .a ∨ x = .d ∨ x = .n)
include hx

/-- An operand window is one of the fields `winA`, `winD`, `winN`. -/
theorem Block.withWindow_operands : k.withWindow x ws = { k with
    winA := (k.withWindow x ws).winA
    winD := (k.withWindow x ws).winD
    winN := (k.withWindow x ws).winN } := by
  rcases hx with rfl | rfl | rfl <;> rfl

/-- A write below `L` of an operand window stores its word there (R181). -/
theorem Block.writeWindow_operand {limbs i : Nat} (hi : i < limbs) (val : Word) :
    k.writeWindow limbs x i val = k.withWindow x ((k.window x).set i val) := by
  rcases hx with rfl | rfl | rfl <;>
    simp only [Block.writeWindow, Block.withWindow, Block.window, limbWrite_below _ _ hi]

end WithWindow

/-! ### Running an expansion on the host's turns -/

/-- The host's next line at the front of a run. -/
theorem run_host_line {s t : State} {op : HostOp} {ops : List HostOp} {ts : List Turn} (m : Nat)
    (hs : s.schedule = .host :: ts) (hp : s.program = op :: ops)
    (h : hostStep op { s with program := ops, schedule := ts } = .next t) :
    core.run (m + 1) s = core.run m t :=
  run_succ ((step_host_line hs hp).trans h)

/-- One line of `ld`: the word after `done` is replaced. -/
theorem hostStep_ld_line {x : Window} (hx : x = .a ∨ x = .d ∨ x = .n) {s : State} {done old : List Word}
    {o : Word} (w : Word) (hwin : s.block.window x = done ++ o :: old)
    (hlimbs : done.length < s.config.limbs) (h256 : s.config.limbs ≤ 256) :
    hostStep (wr (x.base + 4 * done.length) w) s =
      .next { s with block := s.block.withWindow x (done ++ w :: old) } := by
  rw [wr, hostStep_wr_word x (hlimbs.trans_le h256), Block.writeWindow_operand _ hx hlimbs, hwin,
    List.set_append_right _ _ le_rfl, Nat.sub_self, List.set_cons_zero]

/-- Writing limbs to an operand window from word `done.length` on puts them in the place of as many old
ones. -/
theorem run_ldFrom {x : Window} (hx : x = .a ∨ x = .d ∨ x = .n) {ops : List HostOp} {ts : List Turn}
    (ws : List Word) : ∀ (s : State) (done old : List Word),
      s.block.window x = done ++ old → old.length = ws.length →
      done.length + ws.length ≤ s.config.limbs → s.config.limbs ≤ 256 →
      s.program = ldFrom x done.length ws ++ ops →
      s.schedule = List.replicate ws.length .host ++ ts →
      core.run ws.length s = .next { s with
        program := ops, schedule := ts, block := s.block.withWindow x (done ++ ws) } := by
  induction ws with
  | nil =>
    rintro s done old hwin hold - - rfl rfl
    obtain rfl := List.length_eq_zero_iff.mp hold
    rw [← hwin, Block.withWindow_self]
    rfl
  | cons w ws ih =>
    intro s done old hwin hold hlimbs h256 hp hs
    obtain ⟨o, old, rfl⟩ := List.exists_cons_of_length_eq_add_one hold
    rw [List.length_cons] at hlimbs
    have hlt : done.length < s.config.limbs := by omega
    have hfirst := run_host_line ws.length hs hp (hostStep_ld_line hx w hwin hlt h256)
    refine hfirst.trans ((ih _ (done ++ [w]) old ?_ (Nat.succ.inj hold) ?_ ?_ ?_ rfl).trans ?_)
    · simp [Block.window_withWindow]
    · simp only [List.length_append, List.length_singleton]
      omega
    · exact h256
    · simp
    · simp

/-- Settles O30: the whole window is the place of the limbs of `v`. -/
theorem ldLoadsTheWindow : Obligations.LdLoadsTheWindow := by
  intro s x v ops ts hlegal hx hlen hv hp hs
  obtain ⟨-, h256, -⟩ := hlegal
  have hrun := run_ldFrom hx (toLimbs s.config.limbs v) s [] (s.block.window x) rfl
    (by simpa using hlen) (by simp) h256 hp (by simpa using hs)
  rw [toLimbs_length, List.nil_append] at hrun
  refine ⟨_, hrun, ?_, fun y hy => ?_, Block.withWindow_operands _ _ hx⟩
  · rw [Block.window_withWindow, if_pos rfl, win_toLimbs]
    exact Nat.mod_eq_of_lt hv
  · rw [Block.window_withWindow, if_neg hy]

/-- One line of `rd_res`: the word after `done` is received. -/
theorem hostStep_rdRes_line {s : State} {done rest : List Word} {w : Word}
    (hres : s.block.result = done ++ w :: rest) (hlimbs : done.length < s.config.limbs)
    (h256 : s.config.limbs ≤ 256) :
    hostStep (rd (0x1000 + 4 * done.length)) s = .next { s with received := w :: s.received } := by
  have hread : readReg s (.word .result done.length) = w := by
    simp [readReg, limbRead, Block.window, hres, hlimbs]
  have hline := hostStep_rd_of_access (access_word .result (hlimbs.trans_le h256)) s
  rwa [hread] at hline

/-- Reading RESULT from word `done.length` on returns its remaining limbs, the last one newest. -/
theorem run_rdRes {ops : List HostOp} {ts : List Turn} (ws : List Word) :
    ∀ (s : State) (done : List Word),
      s.block.result = done ++ ws → done.length + ws.length ≤ s.config.limbs →
      s.config.limbs ≤ 256 →
      s.program = ((List.range' done.length ws.length).map fun i => rd (0x1000 + 4 * i)) ++ ops →
      s.schedule = List.replicate ws.length .host ++ ts →
      core.run ws.length s = .next { s with
        program := ops, schedule := ts, received := ws.reverse ++ s.received } := by
  induction ws with
  | nil =>
    rintro s done - - - rfl rfl
    rfl
  | cons w ws ih =>
    intro s done hres hlimbs h256 hp hs
    rw [List.length_cons] at hlimbs
    have hlt : done.length < s.config.limbs := by omega
    have hfirst := run_host_line ws.length hs hp (hostStep_rdRes_line hres hlt h256)
    refine hfirst.trans ((ih _ (done ++ [w]) ?_ ?_ ?_ ?_ rfl).trans ?_)
    · simpa using hres
    · simp only [List.length_append, List.length_singleton]
      omega
    · exact h256
    · simp
    · simp

/-- Settles O54: `rd_res` reads RESULT from its first limb to its last. -/
theorem rdResReadsResult : Obligations.RdResReadsResult := by
  intro s ops ts hlegal hlen hp hs
  obtain ⟨-, h256, -⟩ := hlegal
  rw [← hlen] at hp hs ⊢
  rw [rdRes, List.range_eq_range'] at hp
  exact ⟨_, run_rdRes s.block.result s [] rfl (by simp [hlen]) h256 hp hs, rfl,
    rdResValue_reverse_append _ _⟩

end Sys2Proof.Machine

/-! PROOFS. POWMOD: its submission (O10, O13), the engine's step in PM_LOOP (O31, O32), what a step can do
to a running POWMOD, whoever moves (O45), and its run to the end (O44). -/

namespace Sys2Proof.Machine

/-! ### The submission -/

/-- POWMOD submitted while IDLE: only the modulus is checked (R112, R118). -/
theorem exec_powmod_idle {s : State} (hst : s.block.st = .idle) :
    exec .powmod s = .next { s with
      block := if win s.block.winN = 0 then s.block.fail .modulusZero else s.block.startPowmod } := by
  rw [exec, execPowmod, Block.submit_checked hst]

/-- In IDLE an error changes DONE, ERR_CODE and the request alone (R202). -/
theorem Block.fail_idle {k : Block} (hst : k.st = .idle) (c : ErrCode) :
    k.fail c = { k with done := true, errCode := c, rndPending := false } := by
  rw [Block.fail, ← hst]

/-- Settles O10: the modulus passes its check, and acceptance takes the operands. -/
theorem powmodAccepted : Obligations.PowmodAccepted := by
  intro s hst hn
  rw [exec_powmod_idle hst, if_neg hn]
  rfl

/-- Settles O13: the modulus fails its check while IDLE. -/
theorem powmodModulusZero : Obligations.PowmodModulusZero := by
  intro s hst hn
  rw [exec_powmod_idle hst, if_pos hn, Block.fail_idle hst]

/-! ### The engine's step -/

/-- In PM_LOOP the engine always has a step. -/
theorem State.engineStep_pmLoop {s : State} (hst : s.block.st = .pmLoop) :
    s.engineStep = some { s with block := s.block.pmLoopStep s.config.limbs } := by
  rw [State.engineStep_of_ne_draw (by simp [hst]), Block.engineStep, hst, Option.map_some]

/-- With exponent left, the step is an iteration (R113). -/
theorem State.engineStep_pmIterate {s : State} (hst : s.block.st = .pmLoop)
    (he : s.block.work.e ≠ 0) :
    s.engineStep = some { s with block := { s.block with work := s.block.work.iterate } } := by
  rw [State.engineStep_pmLoop hst, Block.pmLoopStep, if_pos he]

/-- With the exponent used up, the step ends the command (R114). -/
theorem State.engineStep_pmEnd {s : State} (hst : s.block.st = .pmLoop) (he : s.block.work.e = 0) :
    s.engineStep = some { s with block := s.block.finishPm s.config.limbs } := by
  rw [State.engineStep_pmLoop hst, Block.pmLoopStep, if_neg (not_not.mpr he)]

/-- Settles O31: the step is one iteration of the working registers. -/
theorem powmodIteration : Obligations.PowmodIteration :=
  fun _ hst he => State.engineStep_pmIterate hst he

/-- Settles O32: the step is the end of the command. -/
theorem powmodEnd : Obligations.PowmodEnd :=
  fun _ hst he => State.engineStep_pmEnd hst he

/-! ### A running POWMOD under every step -/

/-- In PM_LOOP the engine iterates or ends the command. -/
theorem Block.EngineMove.pmLoop_cases {limbs : Nat} {k l : Block} (h : Block.EngineMove limbs k l)
    (hst : k.st = .pmLoop) :
    l = { k with work := k.work.iterate } ∨ (k.work.e = 0 ∧ l = k.finishPm limbs) := by
  cases h
  case pmIterate => exact .inl rfl
  case pmEnd _ he => exact .inr ⟨he, rfl⟩
  all_goals simp_all

section PowmodRunning

variable {a d m : Nat} {k l : Block} (h : k.PowmodRunning a d m)

include h

/-- Whether a POWMOD is on course depends on STATUS and the working registers alone. -/
theorem Block.PowmodRunning.congr (hst : l.st = k.st) (hdone : l.done = k.done)
    (herr : l.errCode = k.errCode) (hwork : l.work = k.work) : l.PowmodRunning a d m := by
  rwa [Block.PowmodRunning, hst, hdone, herr, hwork]

/-- An iteration keeps the power and the bounds (R115). -/
theorem Block.PowmodRunning.iterate :
    Block.PowmodRunning a d m { k with work := k.work.iterate } := by
  obtain ⟨hst, hdone, herr, rfl, hv, -, hpow⟩ := h
  have hlt := Working.iterate_lt ((Nat.zero_le _).trans_lt hv) hv
  exact ⟨hst, hdone, herr, rfl, hlt.1, hlt.2, k.work.iterate_power.trans hpow⟩

/-- With the exponent used up, the accumulator is the power (R115). -/
theorem Block.PowmodRunning.v_eq_power (he : k.work.e = 0) : k.work.v = a ^ d % m := by
  obtain ⟨-, -, -, -, hv, -, hpow⟩ := h
  rwa [he, pow_zero, mul_one, Nat.mod_eq_of_lt hv] at hpow

/-- The engine keeps a POWMOD on course or ends it with the power (R113, R114). -/
theorem Block.PowmodRunning.engineMove {limbs : Nat} (hm : Block.EngineMove limbs k l) :
    l.PowmodRunning a d m ∨
      (l.st = .idle ∧ l.done = true ∧ l.errCode = .noError ∧
        l.result = toLimbs limbs (a ^ d % m)) := by
  have ⟨hst, _, herr, _⟩ := h
  rcases hm.pmLoop_cases hst with rfl | ⟨he, rfl⟩
  · exact .inl h.iterate
  · exact .inr ⟨rfl, rfl, herr, congrArg (toLimbs limbs) (h.v_eq_power he)⟩

/-- DONE and ERR_CODE are clear while a POWMOD runs, so clearing them changes nothing (R187). -/
theorem Block.PowmodRunning.clearStatus (x : Word) : (k.clearStatus x).PowmodRunning a d m := by
  obtain ⟨hst, hdone, herr, hwork⟩ := h
  exact ⟨hst, by simp [hdone], by simp [herr], hwork⟩

/-- A host write, SRST apart, keeps a POWMOD on course or aborts it (R94, R184). -/
theorem Block.PowmodRunning.hostMove {limbs : Nat} {val : Word} {reg : Reg}
    (hm : Block.HostMove limbs val k reg l) :
    l.PowmodRunning a d m ∨
      (l.st = .idle ∧ l.done = true ∧ l.errCode = .aborted ∧ l.result = k.result) := by
  have hbusy : k.st ≠ .idle := by simp [h.1]
  cases hm with
  | ignored => exact .inl h
  | status => exact .inl (h.clearStatus val)
  | iter => exact .inl h
  | word x i => exact .inl (h.congr (by simp) (by simp) (by simp) (by simp))
  | irqEn => exact .inl h
  | abort => exact .inr ⟨rfl, rfl, rfl, rfl⟩
  | overrun => exact .inl h
  | refused hst => exact absurd hst hbusy
  | powmod hst => exact absurd hst hbusy
  | mrTest hst => exact absurd hst hbusy
  | mrTrial hst => exact absurd hst hbusy

end PowmodRunning

/-- Settles O45: an engine move iterates or ends, a host write leaves the command alone or aborts it, and
a reset discards it. -/
theorem powmodRightUnderEveryInterleaving : Obligations.PowmodRightUnderEveryInterleaving := by
  intro s t a d m hrun hstep
  rcases step_cases hstep with ⟨hm, -⟩ | ⟨hb, -, hf⟩ | ⟨hb, -⟩ | ⟨_, _, _, _, -, -, -, hm, -⟩
  · rcases hrun.engineMove hm with hon | hend
    · exact .inl hon
    · exact .inr (.inl hend)
  · exact .inr (.inr (.inr ⟨hf, congrArg Block.st hb, congrArg Block.done hb⟩))
  · exact .inl (hb ▸ hrun)
  · rcases hrun.hostMove hm with hon | habort
    · exact .inl hon
    · exact .inr (.inr (.inl habort))

/-! ### The run to the end -/

/-- Halving a positive number takes one bit off it. -/
theorem size_half {e : Nat} (he : e ≠ 0) : Nat.size e = Nat.size (e / 2) + 1 := by
  rw [← Nat.div2_val]
  conv_lhs => rw [← Nat.bit_bodd_div2 e]
  exact Nat.size_bit (by rwa [Nat.bit_bodd_div2])

/-- Left to the engine, PM_LOOP ends after one step for each bit of the exponent and one more, with the
power in RESULT (R115, R122). -/
theorem run_pmLoop (e : Nat) : ∀ s : State, s.block.work.e = e → s.block.st = .pmLoop →
    s.schedule = [] → s.block.work.v < s.block.work.n →
    ∃ work : Working, core.run (Nat.size e + 1) s = .next { s with block := { s.block with
      work := work
      result := toLimbs s.config.limbs (s.block.work.v * s.block.work.b ^ e % s.block.work.n)
      st := .idle
      done := true } } := by
  induction e using Nat.strongRec with
  | ind e ih =>
    intro s he hst hs hv
    by_cases h0 : e = 0
    · subst h0
      refine ⟨s.block.work, ?_⟩
      rw [run_succ (step_engine hs (State.engineStep_pmEnd hst he)), pow_zero, mul_one,
        Nat.mod_eq_of_lt hv]
      rfl
    · subst he
      have hlt := Working.iterate_lt ((Nat.zero_le _).trans_lt hv) hv
      have hstep := step_engine hs (State.engineStep_pmIterate hst h0)
      obtain ⟨work, hrun⟩ := ih _ (Nat.div_lt_self (Nat.pos_of_ne_zero h0) one_lt_two)
        { s with block := { s.block with work := s.block.work.iterate } } rfl hst hs hlt.1
      refine ⟨work, ?_⟩
      rw [size_half h0, run_succ hstep, hrun, ← s.block.work.iterate_power]
      rfl

/-- Settles O44: the accepted operands start the loop on `1 * (a mod n)^d`. -/
theorem powmodComputesPower : Obligations.PowmodComputesPower := by
  intro s hst hn hs hlen
  have hpos : 0 < win s.block.winN := Nat.pos_of_ne_zero hn
  have hpower : 1 % win s.block.winN * (win s.block.winA % win s.block.winN) ^ win s.block.winD %
      win s.block.winN = win s.block.winA ^ win s.block.winD % win s.block.winN := by
    rw [Nat.mod_mul_mod, one_mul, ← Nat.pow_mod]
  obtain ⟨work, hrun⟩ := run_pmLoop (win s.block.winD) { s with block := s.block.startPowmod } rfl rfl
    hs (Nat.mod_lt 1 hpos)
  refine ⟨_, work, exec_powmod_idle hst, ?_, ?_⟩
  · rw [if_neg hn, hrun, ← hpower, ← hst]
    rfl
  · have hfits : win s.block.winN < 2 ^ (32 * s.config.limbs) := hlen ▸ win_lt s.block.winN
    rw [win_toLimbs, Nat.mod_eq_of_lt ((Nat.mod_lt _ hpos).trans hfits)]

end Sys2Proof.Machine

/-! PROOFS. The Miller-Rabin commands step by step: their submission (O11, O12, O14), the engine's step in
each of their states (O34, O35, O36, O37, O55, O56, O57, O58), and who consumes a random answer (O59). -/

namespace Sys2Proof.Machine

/-! ### The submission -/

/-- MR_TEST submitted while IDLE: only ITER is checked (R133, R150). -/
theorem exec_mrTest_idle {s : State} (hst : s.block.st = .idle) :
    exec .mrTest s = .next { s with
      block := if s.block.iter = 0#32 then s.block.fail .iterZero else s.block.startMrTest } := by
  rw [exec, execMrTest, Block.submit_checked hst]

/-- MR_TRIAL submitted while IDLE: no operand is checked (R134, R151). -/
theorem exec_mrTrial_idle {s : State} (hst : s.block.st = .idle) :
    exec .mrTrial s = .next { s with block := s.block.startMrTrial } := by
  rw [exec, execMrTrial, Block.submit_started hst]

/-- With `ITER >= 1`, MR_TEST is accepted (R133). -/
theorem exec_mrTest_started {s : State} (hst : s.block.st = .idle) (hi : 1 ≤ s.block.iter.toNat) :
    exec .mrTest s = .next { s with block := s.block.startMrTest } := by
  have hne : s.block.iter ≠ 0#32 := fun h0 => by simp [h0] at hi
  rw [exec_mrTest_idle hst, if_neg hne]

/-- With `ITER >= 1`, the number of trials to run does not wrap (R131). -/
theorem toNat_iter_sub_one {iter : Word} (hi : 1 ≤ iter.toNat) :
    (iter - 1).toNat = iter.toNat - 1 :=
  BitVec.toNat_sub_of_le (BitVec.le_def.mpr hi)

/-- Settles O11: ITER passes its check, and acceptance takes the operands. -/
theorem mrTestAccepted : Obligations.MrTestAccepted :=
  fun _ hst hi => ⟨_, toNat_iter_sub_one hi, exec_mrTest_started hst hi⟩

/-- Settles O12: acceptance takes the operands. -/
theorem mrTrialAccepted : Obligations.MrTrialAccepted :=
  fun _ hst => exec_mrTrial_idle hst

/-- Settles O14: ITER fails its check while IDLE. -/
theorem mrTestIterZero : Obligations.MrTestIterZero := by
  intro s hst (hi : s.block.iter = 0#32)
  rw [exec_mrTest_idle hst, if_pos hi, Block.fail_idle hst]

/-! ### The engine's step -/

section EngineStep

variable {s : State}

theorem State.engineStep_mrCheck (hst : s.block.st = .mrCheck) :
    s.engineStep = some { s with block := s.block.mrCheckStep s.config.limbs } := by
  rw [State.engineStep_of_ne_draw (by simp [hst]), Block.engineStep, hst, Option.map_some]

theorem State.engineStep_mrDecomp (hst : s.block.st = .mrDecomp) :
    s.engineStep = some { s with block := s.block.mrDecompStep } := by
  rw [State.engineStep_of_ne_draw (by simp [hst]), Block.engineStep, hst, Option.map_some]

theorem State.engineStep_mrNext (hst : s.block.st = .mrNext) :
    s.engineStep = some { s with block := s.block.mrNextStep s.config.limbs } := by
  rw [State.engineStep_of_ne_draw (by simp [hst]), Block.engineStep, hst, Option.map_some]

theorem State.engineStep_mrPow (hst : s.block.st = .mrPow) :
    s.engineStep = some { s with block := s.block.mrPowStep } := by
  rw [State.engineStep_of_ne_draw (by simp [hst]), Block.engineStep, hst, Option.map_some]

theorem State.engineStep_mrChain (hst : s.block.st = .mrChain) :
    s.engineStep = some { s with block := s.block.mrChainStep s.config.limbs } := by
  rw [State.engineStep_of_ne_draw (by simp [hst]), Block.engineStep, hst, Option.map_some]

end EngineStep

/-! What the step does to the block, branch by branch. -/

section BlockSteps

variable (limbs : Nat) {k : Block}

theorem Block.mrCheckStep_special (h : k.work.n < 5 ∨ k.work.n % 2 = 0) :
    k.mrCheckStep limbs = k.finishMr limbs (decide (k.work.n = 2 ∨ k.work.n = 3)) := by
  by_cases h5 : k.work.n < 5
  · rw [Block.mrCheckStep, if_pos h5, Bool.decide_or]
    rfl
  · have hne : ¬(k.work.n = 2 ∨ k.work.n = 3) := by omega
    rw [Block.mrCheckStep, if_neg h5, if_pos (h.resolve_left h5), decide_eq_false hne]

theorem Block.mrCheckStep_odd (h5 : 5 ≤ k.work.n) (hodd : k.work.n % 2 = 1) :
    k.mrCheckStep limbs =
      { k with work := { k.work with r := k.work.n - 1 }, st := .mrDecomp } := by
  rw [Block.mrCheckStep, if_neg (by omega), if_neg (by omega)]

theorem Block.mrDecompStep_even (h : k.work.r % 2 = 0) :
    k.mrDecompStep = { k with work := { k.work with r := k.work.r / 2, s := k.work.s + 1 } } := by
  rw [Block.mrDecompStep, if_pos h]

theorem Block.mrDecompStep_odd (h : k.work.r % 2 = 1) : k.mrDecompStep = { k with st := .mrNext } := by
  rw [Block.mrDecompStep, if_neg (by omega)]

theorem Block.mrNextStep_end (h : k.work.trials = k.work.eff) :
    k.mrNextStep limbs = k.finishMr limbs true := by
  rw [Block.mrNextStep, if_pos h]

theorem Block.mrNextStep_outOfRange (h : k.work.trials ≠ k.work.eff) (hop : k.work.op = .mrTrial)
    (hwa : k.work.wa < 2 ∨ k.work.n - 2 < k.work.wa) :
    k.mrNextStep limbs = k.fail .witnessRange := by
  rw [Block.mrNextStep, if_neg h, if_pos hop, if_pos hwa]

theorem Block.mrNextStep_begin (h : k.work.trials ≠ k.work.eff) (hop : k.work.op = .mrTrial)
    (h2 : 2 ≤ k.work.wa) (hn : k.work.wa ≤ k.work.n - 2) :
    k.mrNextStep limbs = k.beginTrial k.work.wa := by
  rw [Block.mrNextStep, if_neg h, if_pos hop, if_neg (by omega)]

theorem Block.mrNextStep_request (h : k.work.trials ≠ k.work.eff) (hop : k.work.op = .mrTest) :
    k.mrNextStep limbs = k.rndRequest (k.work.n - 1) := by
  rw [Block.mrNextStep, if_neg h, if_neg (by simp [hop])]

theorem Block.mrDrawStep_fault {u : Nat} (hu : k.rndBound ≤ u) :
    k.mrDrawStep u =
      Block.fail .rndFault { k with work := { k.work with draws := satIncr k.work.draws } } := by
  rw [Block.mrDrawStep, if_pos hu]

theorem Block.mrDrawStep_redraw {u : Nat} (hu : u < k.rndBound) (h2 : u < 2) :
    k.mrDrawStep u = Block.rndRequest k.rndBound
      { k with work := { k.work with draws := satIncr k.work.draws } } := by
  rw [Block.mrDrawStep, if_neg (by omega), if_pos h2]

theorem Block.mrDrawStep_begin {u : Nat} (hu : u < k.rndBound) (h2 : 2 ≤ u) :
    k.mrDrawStep u = Block.beginTrial u
      { k with work := { k.work with draws := satIncr k.work.draws }, rndPending := false } := by
  rw [Block.mrDrawStep, if_neg (by omega), if_neg (by omega)]

theorem Block.mrPowStep_iterate (h : k.work.e ≠ 0) :
    k.mrPowStep = { k with work := k.work.iterate } := by
  rw [Block.mrPowStep, if_pos h]

theorem Block.mrPowStep_passed (h : k.work.e = 0) (hv : k.work.v = 1 ∨ k.work.v = k.work.n - 1) :
    k.mrPowStep = { k with work := { k.work with y := k.work.v }, st := .mrNext } := by
  rw [Block.mrPowStep, if_neg (not_not.mpr h), if_pos hv]

theorem Block.mrPowStep_chain (h : k.work.e = 0) (h1 : k.work.v ≠ 1) (hn : k.work.v ≠ k.work.n - 1) :
    k.mrPowStep = { k with work := { k.work with y := k.work.v, j := 1 }, st := .mrChain } := by
  rw [Block.mrPowStep, if_neg (not_not.mpr h), if_neg (not_or.mpr ⟨h1, hn⟩)]

theorem Block.mrChainStep_square (hj : k.work.j.toNat + 1 ≤ k.work.s.toNat)
    (hy : k.work.y ≠ k.work.n - 1) (h1 : mulmod k.work.y k.work.y k.work.n ≠ 1) :
    k.mrChainStep limbs = { k with work :=
      { k.work with y := mulmod k.work.y k.work.y k.work.n, j := k.work.j + 1 } } := by
  rw [Block.mrChainStep, if_pos ⟨hj, hy⟩]
  exact if_neg h1

theorem Block.mrChainStep_one (hj : k.work.j.toNat + 1 ≤ k.work.s.toNat)
    (hy : k.work.y ≠ k.work.n - 1) (h1 : mulmod k.work.y k.work.y k.work.n = 1) :
    k.mrChainStep limbs = Block.finishMr limbs false { k with work :=
      { k.work with y := mulmod k.work.y k.work.y k.work.n, j := k.work.j + 1 } } := by
  rw [Block.mrChainStep, if_pos ⟨hj, hy⟩]
  exact if_pos h1

theorem Block.mrChainStep_end (hj : k.work.s.toNat < k.work.j.toNat + 1)
    (hy : k.work.y ≠ k.work.n - 1) : k.mrChainStep limbs = k.finishMr limbs false := by
  rw [Block.mrChainStep, if_neg (by omega), if_pos hy]

theorem Block.mrChainStep_passed (hy : k.work.y = k.work.n - 1) :
    k.mrChainStep limbs = { k with st := .mrNext } := by
  rw [Block.mrChainStep, if_neg (fun h => h.2 hy), if_neg (not_not.mpr hy)]

end BlockSteps

/-- Settles O55: the special cases and the odd candidate, each with its branch of the step. -/
theorem mrCheckStep : Obligations.MrCheckStep := by
  intro s hst
  have hspecial (h : s.block.work.n < 5 ∨ s.block.work.n % 2 = 0) (verdict : Bool)
      (hv : decide (s.block.work.n = 2 ∨ s.block.work.n = 3) = verdict) :
      s.engineStep = some { s with block := s.block.finishMr s.config.limbs verdict } := by
    rw [State.engineStep_mrCheck hst, Block.mrCheckStep_special _ h, hv]
  refine ⟨fun hn => hspecial (by omega) true (decide_eq_true hn),
    fun hn => hspecial (by omega) false (decide_eq_false (by omega)),
    fun h5 heven => hspecial (.inr heven) false (decide_eq_false (by omega)), fun h5 hodd => ?_⟩
  rw [State.engineStep_mrCheck hst, Block.mrCheckStep_odd _ h5 hodd]

/-- Settles O56: a halving or the way on, by the parity of `r`. -/
theorem mrDecompStep : Obligations.MrDecompStep := by
  intro s hst
  rw [State.engineStep_mrDecomp hst]
  exact ⟨fun heven => by rw [Block.mrDecompStep_even heven],
    fun hodd => by rw [Block.mrDecompStep_odd hodd]⟩

/-- Settles O34: the branches of MR_NEXT in their order. -/
theorem trialDispatch : Obligations.TrialDispatch := by
  intro s hst
  rw [State.engineStep_mrNext hst]
  refine ⟨fun ht => ?_, fun ht hop => ⟨fun hwa => ?_, fun h2 hn => ?_⟩, fun ht hop => ?_⟩
  · rw [Block.mrNextStep_end _ ht]
  · rw [Block.mrNextStep_outOfRange _ ht hop hwa, Block.fail]
  · rw [Block.mrNextStep_begin _ ht hop h2 hn, Block.beginTrial]
  · rw [Block.mrNextStep_request _ ht hop, Block.rndRequest]

/-- Settles O35: every branch of MR_DRAW counts the value. -/
theorem randomValueConsumed : Obligations.RandomValueConsumed := by
  intro s u us hst ha
  rw [State.engineStep_draw_cons hst ha]
  refine ⟨_, satIncr_toNat s.block.work.draws, fun hu => ?_, fun hu h2 => ?_, fun hu h2 => ?_⟩
  · rw [Block.mrDrawStep_fault hu, Block.fail]
  · rw [Block.mrDrawStep_redraw hu h2, Block.rndRequest, ← hst]
  · rw [Block.mrDrawStep_begin hu h2, Block.beginTrial]

/-- Settles O57: an iteration, or the two ways on with the exponent used up. -/
theorem mrPowStep : Obligations.MrPowStep := by
  intro s hst
  rw [State.engineStep_mrPow hst]
  refine ⟨fun he => ?_, fun he hv => ?_, fun he h1 hn => ?_⟩
  · rw [Block.mrPowStep_iterate he]
    rfl
  · rw [Block.mrPowStep_passed he hv]
  · rw [Block.mrPowStep_chain he h1 hn]

/-- Settles O58: a squaring tested for 1, the end of the chain, or a trial passed. -/
theorem mrChainStep : Obligations.MrChainStep := by
  rintro s y' hst rfl
  rw [State.engineStep_mrChain hst]
  refine ⟨fun hj hy => ⟨fun h1 => ?_, fun h1 => ?_⟩, fun hj hy => ?_, fun hy => ?_⟩
  · rw [Block.mrChainStep_square _ hj hy h1]
    rfl
  · rw [Block.mrChainStep_one _ hj hy h1]
    rfl
  · rw [Block.mrChainStep_end _ hj hy]
  · rw [Block.mrChainStep_passed _ hy]

/-! ### When the engine has a step -/

/-- The engine has a step exactly while a command runs and is not waiting for a value (R142, R149). -/
theorem State.engineStep_isSome_iff (s : State) :
    (∃ t, s.engineStep = some t) ↔
      s.block.st ≠ .idle ∧ (s.block.st = .mrDraw → s.answers ≠ []) := by
  by_cases hdraw : s.block.st = .mrDraw
  · cases ha : s.answers with
    | nil => simp [State.engineStep_draw_nil hdraw ha, hdraw]
    | cons u us => simp [State.engineStep_draw_cons hdraw ha, hdraw]
  · rw [State.engineStep_of_ne_draw hdraw, Block.engineStep]
    cases hst : s.block.st <;> simp_all

/-- Settles O37: with no step the engine's turn passes by its definition. -/
theorem engineStepsUnlessIdleOrWaiting : Obligations.EngineStepsUnlessIdleOrWaiting :=
  fun s => ⟨s.engineStep_isSome_iff, fun hnone => by rw [engineTurn, hnone, Option.getD_none]⟩

/-! ### The end of a command -/

/-- The engine's move that ends a Miller-Rabin command without an error is `finish_mr`, with working
registers in which nothing that it reads has changed (R148). -/
theorem Block.EngineMove.finishMr_of_idle {limbs : Nat} {k l : Block}
    (hm : Block.EngineMove limbs k l) (hpm : k.st ≠ .pmLoop) (hidle : l.st = .idle)
    (herr : l.errCode = .noError) :
    k.st ≠ .mrDraw ∧ ∃ verdict : Bool, l = { k.finishMr limbs verdict with work := l.work } ∧
      l.work.s = k.work.s ∧ l.work.trials = k.work.trials ∧ l.work.draws = k.work.draws ∧
      l.work.w = k.work.w := by
  cases hm
  case checkSmall hst _ => exact ⟨by simp [hst], _, rfl, rfl, rfl, rfl, rfl⟩
  case checkEven hst _ _ => exact ⟨by simp [hst], _, rfl, rfl, rfl, rfl, rfl⟩
  case allPassed hst _ => exact ⟨by simp [hst], _, rfl, rfl, rfl, rfl, rfl⟩
  case squareToOne hst _ _ _ => exact ⟨by simp [hst], _, rfl, rfl, rfl, rfl, rfl⟩
  case chainEnd hst _ _ => exact ⟨by simp [hst], _, rfl, rfl, rfl, rfl, rfl⟩
  -- Every other move leaves the command running or ends it with an error.
  all_goals simp_all

/-- Outside MR_DRAW the engine's step changes the block alone. -/
theorem State.engineStep_block {s t : State} (h : s.engineStep = some t)
    (hdraw : s.block.st ≠ .mrDraw) : t = { s with block := t.block } := by
  rw [State.engineStep_of_ne_draw hdraw, Option.map_eq_some_iff] at h
  obtain ⟨k, -, rfl⟩ := h
  rfl

/-- Settles O36: the readbacks are those of `finish_mr`, and only `finish_mr` ends such a command without
an error. -/
theorem finishMrWritesReadbacks : Obligations.FinishMrWritesReadbacks := by
  refine ⟨fun limbs verdict k => ?_, fun s t hstep hpm hidle herr => ?_⟩
  · have hverdict : verdict.toNat = if verdict = true then 1 else 0 := by cases verdict <;> rfl
    have hwitness : toLimbs limbs (if k.work.trials = 0#32 then 0 else k.work.w) =
        if 0 < k.work.trials.toNat then toLimbs limbs k.work.w else List.replicate limbs 0 := by
      by_cases h0 : k.work.trials = 0#32
      · simp [h0, toLimbs_zero]
      · have hpos : 0 < k.work.trials.toNat :=
          Nat.pos_of_ne_zero fun h => h0 (BitVec.eq_of_toNat_eq h)
        rw [if_neg h0, if_pos hpos]
    exact ⟨by rw [Block.finishMr, hverdict, hwitness], by
      rw [Block.finishMr_result, win_toLimbs, hverdict]⟩
  · obtain ⟨hdraw, verdict, hblock, hregs⟩ :=
      (State.engineStep_move hstep).1.finishMr_of_idle hpm hidle herr
    refine ⟨verdict, ?_, hregs⟩
    rw [← hblock]
    exact State.engineStep_block hstep hdraw

/-! ### The random answers -/

/-- The engine's turn keeps the answers, or is its step in MR_DRAW with the first of them (R141, R142). -/
theorem engineTurn_answers (s : State) :
    (engineTurn s).answers = s.answers ∨
      (s.block.st = .mrDraw ∧ ∃ u, s.answers = u :: (engineTurn s).answers ∧
        (engineTurn s).block = s.block.mrDrawStep u ∧ (engineTurn s).program = s.program ∧
        (engineTurn s).received = s.received ∧ (engineTurn s).freeCount = s.freeCount) := by
  unfold engineTurn
  cases hstep : s.engineStep with
  | none => exact .inl rfl
  | some t =>
    obtain ⟨-, -, hprog, -, hrec, hfree⟩ := State.engineStep_move hstep
    rcases State.engineStep_answers hstep with ⟨-, ha⟩ | ⟨hst, u, ha, hb⟩
    · exact .inl ha
    · exact .inr ⟨hst, u, ha, hb, hprog, hrec, hfree⟩

/-- Whoever moves, a step keeps the answers, or is the engine's in MR_DRAW with the first of them. -/
theorem step_answers {s t : State} (h : step s = .next t) :
    t.answers = s.answers ∨
      (s.block.st = .mrDraw ∧ ∃ u, s.answers = u :: t.answers ∧ t.block = s.block.mrDrawStep u ∧
        t.program = s.program ∧ t.received = s.received ∧ t.freeCount = s.freeCount) := by
  unfold step takeTurn at h
  split at h
  · exact .inl (hostTurn_answers h :)
  · next ts _ =>
    cases h
    exact engineTurn_answers { s with schedule := ts }
  · cases h
    exact .inl rfl
  · split at h
    · next u hu =>
      cases h
      have hturn : engineTurn s = t := by rw [engineTurn, hu, Option.getD_some]
      exact hturn ▸ engineTurn_answers s
    · exact .inl (hostTurn_answers h)

/-- Settles O59: the step that consumes an answer is the engine's in MR_DRAW, and no reset. -/
theorem answersConsumedOnlyInDraw : Obligations.AnswersConsumedOnlyInDraw := by
  intro s t hstep
  rcases step_answers hstep with ha | ⟨hst, u, ha, hb, hprog, hrec, hfree⟩
  · exact ⟨fun _ => ha, fun _ => ha, fun hne => absurd ha hne⟩
  · exact ⟨fun hne => absurd hst hne, fun hne => absurd hfree hne,
      fun _ => ⟨u, ha, hb, hprog, hrec⟩⟩

end Sys2Proof.Machine

/-! PROOFS. The Miller-Rabin commands left to the engine: the special candidates (O46), the decomposition
(O33), MR_TRIAL with a witness out of range (O47), and the run of one trial to its outcome (O48). -/

namespace Sys2Proof.Machine

/-! ### Runs of the engine -/

/-- `s` with its command gone on: other working registers and another sequencer state. -/
def State.proceed (s : State) (work : Working) (st : SeqState) : State :=
  { s with block := { s.block with work := work, st := st } }

/-- `s` with its command ended by `finish_mr(verdict)` (R148) over the working registers `work`. -/
def State.finished (s : State) (work : Working) (verdict : Bool) : State :=
  { s with block := Block.finishMr s.config.limbs verdict { s.block with work := work } }

/-- The engine takes `k` steps in a row, having a step in each state on the way. -/
inductive EngineRun : Nat → State → State → Prop
  | refl (s : State) : EngineRun 0 s s
  | step {k : Nat} {s t u : State} (h : s.engineStep = some t) (hrun : EngineRun k t u) :
      EngineRun (k + 1) s u

theorem EngineRun.trans {k m : Nat} {s t u : State} (h : EngineRun k s t) (h' : EngineRun m t u) :
    EngineRun (k + m) s u := by
  induction h with
  | refl => rwa [Nat.zero_add]
  | step hstep _ ih =>
    rw [Nat.add_right_comm]
    exact .step hstep (ih h')

theorem EngineRun.single {s t : State} (h : s.engineStep = some t) : EngineRun 1 s t := .step h (.refl t)

/-- A run of the engine is its turn repeated. -/
theorem EngineRun.iterate_engineTurn {k : Nat} {s t : State} (h : EngineRun k s t) :
    engineTurn^[k] s = t := by
  induction h with
  | refl => rfl
  | step hstep _ ih => rwa [Function.iterate_succ_apply, engineTurn, hstep, Option.getD_some]

/-- With no turn named, a run of the engine is a run of the machine (entry 5). -/
theorem EngineRun.core_run {k : Nat} {s t : State} (h : EngineRun k s t) (hs : s.schedule = []) :
    core.run k s = .next t := by
  induction h with
  | refl => rfl
  | step hstep _ ih =>
    obtain ⟨-, -, -, hsched, -⟩ := State.engineStep_move hstep
    rw [run_succ (step_engine hs hstep)]
    exact ih (hsched.trans hs)

/-! ### The decomposition -/

/-- A window of `L` limbs holds a W-bit number (R6, R31). -/
theorem win_lt_of_length {c : Config} {ws : List Word} (hlen : ws.length = c.limbs) :
    win ws < 2 ^ c.width := by
  rw [Config.width, ← hlen]
  exact win_lt ws

/-- The power of two in `n - 1` is below the operand width (R136). -/
theorem exponent_lt_width {n r e width : Nat} (hn : n < 2 ^ width) (h5 : 5 ≤ n)
    (hdec : n - 1 = r * 2 ^ e) : e < width := by
  have hr : 0 < r := Nat.pos_of_ne_zero fun h0 => by rw [h0, Nat.zero_mul] at hdec; omega
  have hle : 2 ^ e ≤ r * 2 ^ e := Nat.le_mul_of_pos_left _ hr
  exact (Nat.pow_lt_pow_iff_right Nat.one_lt_two).mp (by omega)

/-- At a legal configuration the halvings of `n - 1` do not wrap the 16 bits of `s` (R6, R28). -/
theorem toNat_ofNat_exponent {c : Config} {n r e : Nat} (hc : c.Legal) (hn : n < 2 ^ c.width)
    (h5 : 5 ≤ n) (hdec : n - 1 = r * 2 ^ e) : (BitVec.ofNat 16 e).toNat = e := by
  have he : e < c.width := exponent_lt_width hn h5 hdec
  have hwidth : c.width ≤ 8192 := Nat.mul_le_mul_left 32 hc.2.1
  rw [BitVec.toNat_ofNat, Nat.mod_eq_of_lt (by omega)]

/-- The even `n - 1` has at least one factor 2 (R136). -/
theorem one_le_exponent {n r e : Nat} (h5 : 5 ≤ n) (hodd : n % 2 = 1) (hdec : n - 1 = r * 2 ^ e)
    (hr : r % 2 = 1) : 1 ≤ e := by
  refine Nat.pos_of_ne_zero fun h0 => ?_
  rw [h0, Nat.pow_zero, Nat.mul_one] at hdec
  omega

/-- The working registers with the decomposition `n - 1 = r * 2^e` stored (R136). -/
def Working.decomposed (k : Working) (r e : Nat) : Working := { k with r := r, s := BitVec.ofNat 16 e }

/-- MR_DECOMP halves `r` once for each of its factors 2, and goes on to the trials (R136). -/
theorem run_mrDecomp {r : Nat} (hr : r % 2 = 1) (e : Nat) : ∀ s : State, s.block.st = .mrDecomp →
    s.block.work.r = r * 2 ^ e →
    EngineRun (e + 1) s
      (s.proceed { s.block.work with r := r, s := s.block.work.s + BitVec.ofNat 16 e } .mrNext) := by
  induction e with
  | zero =>
    intro s hst hdec
    obtain rfl : s.block.work.r = r := by rw [hdec, Nat.pow_zero, Nat.mul_one]
    rw [BitVec.add_zero]
    have hstep := State.engineStep_mrDecomp hst
    rw [Block.mrDecompStep_odd hr] at hstep
    exact .single hstep
  | succ e ih =>
    intro s hst hdec
    have hhalf : s.block.work.r = r * 2 ^ e * 2 := by rw [hdec, pow_succ, mul_assoc]
    have hstep := State.engineStep_mrDecomp hst
    rw [Block.mrDecompStep_even (by omega)] at hstep
    have hsum : s.block.work.s + BitVec.ofNat 16 (e + 1) =
        s.block.work.s + 1 + BitVec.ofNat 16 e := by
      rw [Nat.add_comm, BitVec.ofNat_add, ← BitVec.add_assoc]
      rfl
    rw [hsum]
    refine .step hstep (ih _ hst ?_)
    show s.block.work.r / 2 = r * 2 ^ e
    omega

/-- Settles O33: `e` halvings, with `e` below the operand width. -/
theorem decompositionEnds : Obligations.DecompositionEnds := by
  intro s r e hc hst hn h5 hodd hr0 hs0 hdec hr
  have hrun := run_mrDecomp hr e s hst (hr0.trans hdec)
  rw [hs0, zero_add] at hrun
  exact ⟨one_le_exponent h5 hodd hdec hr, hrun.iterate_engineTurn,
    toNat_ofNat_exponent hc hn h5 hdec⟩

/-- From MR_CHECK an odd candidate reaches the trial loop with its decomposition (R135, R136). -/
theorem run_mrCheck_odd {s : State} {r e : Nat} (hst : s.block.st = .mrCheck)
    (h5 : 5 ≤ s.block.work.n) (hodd : s.block.work.n % 2 = 1) (hs : s.block.work.s = 0)
    (hdec : s.block.work.n - 1 = r * 2 ^ e) (hr : r % 2 = 1) :
    EngineRun (1 + (e + 1)) s (s.proceed (s.block.work.decomposed r e) .mrNext) := by
  have hstep := State.engineStep_mrCheck hst
  rw [Block.mrCheckStep_odd _ h5 hodd] at hstep
  have hrun := run_mrDecomp hr e (s.proceed { s.block.work with r := s.block.work.n - 1 } .mrDecomp)
    rfl hdec
  rw [show (s.proceed { s.block.work with r := s.block.work.n - 1 } .mrDecomp).block.work.s = 0 from hs,
    zero_add] at hrun
  exact (EngineRun.single hstep).trans hrun

/-! ### Commands decided without a trial -/

/-- Both Miller-Rabin commands start in MR_CHECK with the candidate taken and the counters 0 (R133,
R134). -/
theorem exec_mr_started {s : State} {i : Instr} (hst : s.block.st = .idle)
    (hi : i = .mrTrial ∨ (i = .mrTest ∧ 1 ≤ s.block.iter.toNat)) :
    ∃ work : Working, exec i s = .next { s with block := { s.block with
        done := false, errCode := .noError, st := .mrCheck, work := work } } ∧
      work.n = win s.block.winN ∧ work.trials = 0 ∧ work.draws = 0 ∧ work.s = 0 := by
  rcases hi with rfl | ⟨rfl, hiter⟩
  · exact ⟨_, exec_mrTrial_idle hst, rfl, rfl, rfl, rfl⟩
  · exact ⟨_, exec_mrTest_started hst hiter, rfl, rfl, rfl, rfl⟩

/-- Settles O46: the step in MR_CHECK ends the command, and the counters are those of its start. -/
theorem specialCandidatesDecidedAtOnce : Obligations.SpecialCandidatesDecidedAtOnce := by
  intro s i hi hst hs hspecial
  obtain ⟨work, hexec, hn, htrials, hdraws, hs0⟩ := exec_mr_started hst hi
  rw [← hn] at hspecial ⊢
  have hstep := State.engineStep_mrCheck (s := { s with block := { s.block with
    done := false, errCode := .noError, st := .mrCheck, work := work } }) rfl
  rw [Block.mrCheckStep_special _ hspecial] at hstep
  refine ⟨_, _, hexec, (EngineRun.single hstep).core_run hs, ?_, rfl, rfl, rfl, rfl, rfl, rfl⟩
  have hverdict : (decide (work.n = 2 ∨ work.n = 3)).toNat =
      if work.n = 2 ∨ work.n = 3 then 1 else 0 := by
    by_cases h : work.n = 2 ∨ work.n = 3 <;> simp [h]
  have hwitness : toLimbs s.config.limbs (if work.trials = 0#32 then 0 else work.w) =
      List.replicate s.config.limbs 0 := by
    rw [if_pos (show work.trials = 0#32 from htrials), toLimbs_zero]
  simp only [Block.finishMr, hverdict, hwitness, hst]
  rw [htrials, hdraws, hs0]

/-- Settles O47: the range check follows the decomposition, and an error writes STATUS alone. -/
theorem witnessOutOfRange : Obligations.WitnessOutOfRange := by
  intro s _ hst hs _ h5 hodd hwa
  obtain ⟨e, r, hr, hdec⟩ := Nat.exists_eq_two_pow_mul_odd (show win s.block.winN - 1 ≠ 0 by omega)
  have hrun := run_mrCheck_odd (s := { s with block := s.block.startMrTrial }) rfl h5 hodd rfl
    (hdec.trans (Nat.mul_comm _ _)) (Nat.odd_iff.mp hr)
  have hstep := State.engineStep_mrNext (s := { s with block := s.block.startMrTrial }.proceed
    (s.block.startMrTrial.work.decomposed r e) .mrNext) rfl
  rw [Block.mrNextStep_outOfRange _ (show (0 : BitVec 32) ≠ 1 by decide) rfl hwa] at hstep
  refine ⟨_, _, _, exec_mrTrial_idle hst, (hrun.trans (.single hstep)).core_run hs, ?_,
    rfl, rfl, rfl, rfl, rfl, rfl⟩
  simp only [Block.fail, hst]
  rfl

/-! ### The squaring chain -/

/-- From `y_i` on, the chain reaches `n - 1` before 1 and before its end (R147). -/
def ChainReaches (n r s x i : Nat) : Prop :=
  ∃ m, i ≤ m ∧ m + 1 ≤ s ∧ chainValue n r x m = n - 1 ∧
    ∀ h, i ≤ h → h < m → chainValue n r x h ≠ 1 ∧ chainValue n r x h ≠ n - 1

section ChainReaches

variable {n r s x i : Nat}

/-- The chain is decided at `y_i`, or from `y_(i+1)` on. -/
theorem chainReaches_iff : ChainReaches n r s x i ↔
    (i + 1 ≤ s ∧ chainValue n r x i = n - 1) ∨
      (chainValue n r x i ≠ 1 ∧ chainValue n r x i ≠ n - 1 ∧ ChainReaches n r s x (i + 1)) := by
  constructor
  · rintro ⟨m, him, hms, hm, hbefore⟩
    rcases him.eq_or_lt with rfl | hlt
    · exact .inl ⟨hms, hm⟩
    · obtain ⟨h1, hn⟩ := hbefore i le_rfl hlt
      exact .inr ⟨h1, hn, m, hlt, hms, hm, fun h hih => hbefore h (by omega)⟩
  · rintro (⟨his, hi⟩ | ⟨h1, hn, m, him, hms, hm, hbefore⟩)
    · exact ⟨i, le_rfl, his, hi, fun h hih hlt => absurd hlt (by omega)⟩
    · refine ⟨m, by omega, hms, hm, fun h hih hlt => ?_⟩
      rcases hih.eq_or_lt with rfl | hih
      · exact ⟨h1, hn⟩
      · exact hbefore h hih hlt

theorem not_chainReaches_of_le (hs : s ≤ i) : ¬ChainReaches n r s x i := by
  rintro ⟨m, him, hms, -⟩
  omega

theorem not_chainReaches_of_one (hn : 2 < n) (h1 : chainValue n r x i = 1) :
    ¬ChainReaches n r s x i := by
  rw [chainReaches_iff]
  rintro (⟨-, hpred⟩ | ⟨hne, -⟩)
  · omega
  · exact hne h1

/-- A trial passes with `y_0 = 1`, or when the chain from `y_0` on reaches `n - 1` (R147). -/
theorem trialPasses_iff (hs : 1 ≤ s) :
    TrialPasses n r s x ↔ chainValue n r x 0 = 1 ∨ ChainReaches n r s x 0 := by
  rw [chainReaches_iff, TrialPasses]
  have hfrom1 : ChainReaches n r s x (0 + 1) ↔ ∃ i, 1 ≤ i ∧ i + 1 ≤ s ∧ chainValue n r x i = n - 1 ∧
      ∀ h, 1 ≤ h → h < i → chainValue n r x h ≠ 1 ∧ chainValue n r x h ≠ n - 1 := Iff.rfl
  rw [← hfrom1]
  by_cases h1 : chainValue n r x 0 = 1
  · simp [h1]
  · by_cases hpred : chainValue n r x 0 = n - 1
    · simp [hpred, hs]
    · simp [h1, hpred]

end ChainReaches

/-! ### One trial -/

/-- Two contents of the working registers that differ at most in those of the running trial: `b`, `e`,
`v`, `y` and `j`. -/
def Working.SameTrial (k l : Working) : Prop :=
  ∃ b e v y j, l = { k with b := b, e := e, v := v, y := y, j := j }

theorem Working.SameTrial.trans {k l m : Working} (h : k.SameTrial l) (h' : l.SameTrial m) :
    k.SameTrial m := by
  obtain ⟨_, _, _, _, _, rfl⟩ := h
  obtain ⟨_, _, _, _, _, rfl⟩ := h'
  exact ⟨_, _, _, _, _, rfl⟩

/-- The trial that `s` is in ends within `bound` steps of the engine: back in MR_NEXT if it passes, else
with verdict 0 (R147). -/
def State.TrialEnds (s : State) (bound : Nat) (passes : Prop) : Prop :=
  ∃ (k : Nat) (work : Working), k ≤ bound ∧ s.block.work.SameTrial work ∧
    (passes → EngineRun k s (s.proceed work .mrNext)) ∧
    (¬passes → EngineRun k s (s.finished work false))

section TrialEnds

variable {s : State} {bound : Nat} {passes : Prop} {work : Working}
  (hsame : s.block.work.SameTrial work)

include hsame

theorem State.TrialEnds.of_passed (hp : passes) (hbound : 1 ≤ bound)
    (hstep : s.engineStep = some (s.proceed work .mrNext)) : s.TrialEnds bound passes :=
  ⟨1, work, hbound, hsame, fun _ => .single hstep, fun hnot => absurd hp hnot⟩

theorem State.TrialEnds.of_failed (hp : ¬passes) (hbound : 1 ≤ bound)
    (hstep : s.engineStep = some (s.finished work false)) : s.TrialEnds bound passes :=
  ⟨1, work, hbound, hsame, fun hpass => absurd hpass hp, fun _ => .single hstep⟩

theorem State.TrialEnds.of_step {st : SeqState} {rest : Nat} (hbound : rest + 1 ≤ bound)
    (hstep : s.engineStep = some (s.proceed work st)) (h : (s.proceed work st).TrialEnds rest passes) :
    s.TrialEnds bound passes := by
  obtain ⟨k, work', hk, hsame', hpass, hfail⟩ := h
  exact ⟨k + 1, work', (Nat.succ_le_succ hk).trans hbound, hsame.trans hsame',
    fun hp => .step hstep (hpass hp), fun hp => .step hstep (hfail hp)⟩

end TrialEnds

/-- MR_CHAIN at `y_i = n - 1`, the chain not at its end, passes the trial (R146). -/
theorem trialEnds_mrChain_pred {s : State} {i bound : Nat} (hst : s.block.st = .mrChain)
    (hbound : 1 ≤ bound) (hs : i + 1 ≤ s.block.work.s.toNat)
    (hy : s.block.work.y = chainValue s.block.work.n s.block.work.r s.block.work.w i)
    (hpred : s.block.work.y = s.block.work.n - 1) :
    s.TrialEnds bound
      (ChainReaches s.block.work.n s.block.work.r s.block.work.s.toNat s.block.work.w i) := by
  have hstep := State.engineStep_mrChain hst
  rw [Block.mrChainStep_passed _ hpred] at hstep
  rw [hy] at hpred
  exact .of_passed ⟨_, _, _, _, _, rfl⟩ (chainReaches_iff.mpr (.inl ⟨hs, hpred⟩)) hbound hstep

/-- MR_CHAIN at `y_i`, not 1, ends the trial with the chain's outcome, after at most the squarings that
are left and one step more (R146, R147). -/
theorem trialEnds_mrChain (d : Nat) : ∀ (s : State) (i : Nat), s.block.st = .mrChain →
    2 < s.block.work.n → s.block.work.j.toNat = i + 1 → s.block.work.s.toNat = i + 1 + d →
    s.block.work.y = chainValue s.block.work.n s.block.work.r s.block.work.w i →
    s.block.work.y ≠ 1 →
    s.TrialEnds (d + 1)
      (ChainReaches s.block.work.n s.block.work.r s.block.work.s.toNat s.block.work.w i) := by
  induction d with
  | zero =>
    intro s i hst hn hj hs hy h1
    by_cases hpred : s.block.work.y = s.block.work.n - 1
    · exact trialEnds_mrChain_pred hst (Nat.succ_pos _) hs.ge hy hpred
    · have hstep := State.engineStep_mrChain hst
      rw [Block.mrChainStep_end _ (by omega) hpred] at hstep
      refine .of_failed ⟨_, _, _, _, _, rfl⟩ ?_ (Nat.succ_pos _) hstep
      rw [chainReaches_iff, ← hy]
      rintro (⟨-, h⟩ | ⟨-, -, h⟩)
      · exact hpred h
      · exact not_chainReaches_of_le hs.le h
  | succ d ih =>
    intro s i hst hn hj hs hy h1
    by_cases hpred : s.block.work.y = s.block.work.n - 1
    · exact trialEnds_mrChain_pred hst (Nat.succ_pos _) (by omega) hy hpred
    · have hstep := State.engineStep_mrChain hst
      have hnext :
          ChainReaches s.block.work.n s.block.work.r s.block.work.s.toNat s.block.work.w i ↔
          ChainReaches s.block.work.n s.block.work.r s.block.work.s.toNat s.block.work.w (i + 1) := by
        rw [chainReaches_iff, ← hy]
        simp [h1, hpred]
      have hsquare : mulmod s.block.work.y s.block.work.y s.block.work.n =
          chainValue s.block.work.n s.block.work.r s.block.work.w (i + 1) := by
        rw [hy]
        exact mulmod_chain_square _ _ _ (Nat.le_add_left 1 i)
      rw [hnext]
      by_cases hone : mulmod s.block.work.y s.block.work.y s.block.work.n = 1
      · rw [Block.mrChainStep_one _ (by omega) hpred hone] at hstep
        rw [hsquare] at hone
        exact .of_failed ⟨_, _, _, _, _, rfl⟩ (not_chainReaches_of_one hn hone) (Nat.succ_pos _) hstep
      · rw [Block.mrChainStep_square _ (by omega) hpred hone] at hstep
        have hj' : (s.block.work.j + 1).toNat = i + 1 + 1 := by
          rw [← hj]
          exact toNat_add_one_of_lt (y := s.block.work.s) (by omega)
        have hs' : s.block.work.s.toNat = i + 1 + 1 + d := by omega
        exact .of_step ⟨_, _, _, _, _, rfl⟩ le_rfl hstep (ih _ _ hst hn hj' hs' hsquare hone)

/-- MR_POW on course for `w^r mod n` ends the trial with its outcome, after a step for each bit of the
exponent left, one more, and at most `s` in MR_CHAIN (R145, R147, R154). -/
theorem trialEnds_mrPow (e : Nat) : ∀ s : State, s.block.st = .mrPow → s.block.work.e = e →
    2 < s.block.work.n → 1 ≤ s.block.work.s.toNat → s.block.work.v < s.block.work.n →
    s.block.work.v * s.block.work.b ^ e % s.block.work.n =
      s.block.work.w ^ s.block.work.r % s.block.work.n →
    s.TrialEnds (Nat.size e + 1 + s.block.work.s.toNat)
      (TrialPasses s.block.work.n s.block.work.r s.block.work.s.toNat s.block.work.w) := by
  induction e using Nat.strongRec with
  | ind e ih =>
    intro s hst he hn hs hv hpow
    have hstep := State.engineStep_mrPow hst
    by_cases h0 : e = 0
    · subst h0
      have hfirst : s.block.work.v = chainValue s.block.work.n s.block.work.r s.block.work.w 0 := by
        rwa [pow_zero, mul_one, Nat.mod_eq_of_lt hv, ← mul_one s.block.work.r, ← pow_zero 2] at hpow
      by_cases hpass : s.block.work.v = 1 ∨ s.block.work.v = s.block.work.n - 1
      · rw [Block.mrPowStep_passed he hpass] at hstep
        rw [hfirst] at hpass
        exact .of_passed ⟨_, _, _, _, _, rfl⟩ (hpass.elim .inl fun h => .inr (.inl h)) (by omega) hstep
      · obtain ⟨h1, hpred⟩ := not_or.mp hpass
        obtain ⟨d, hd⟩ := Nat.exists_eq_add_of_le hs
        rw [Block.mrPowStep_chain he h1 hpred] at hstep
        rw [trialPasses_iff hs, ← hfirst, or_iff_right h1]
        exact .of_step ⟨_, _, _, _, _, rfl⟩ (by rw [Nat.size_zero]; omega) hstep
          (trialEnds_mrChain d _ 0 rfl hn rfl hd hfirst h1)
    · subst he
      rw [Block.mrPowStep_iterate h0] at hstep
      have hlt := Working.iterate_lt ((Nat.zero_le _).trans_lt hv) hv
      have hbound : Nat.size (s.block.work.e / 2) + 1 + s.block.work.s.toNat + 1 ≤
          Nat.size s.block.work.e + 1 + s.block.work.s.toNat := by
        rw [size_half h0]
        omega
      exact .of_step ⟨_, _, _, _, _, rfl⟩ hbound hstep
        (ih _ (Nat.div_lt_self (Nat.pos_of_ne_zero h0) one_lt_two)
          (s.proceed s.block.work.iterate s.block.st) hst rfl hn hs hlt.1
          (s.block.work.iterate_power.trans hpow))

/-- A trial just begun ends with its outcome (R144, R147, R154). -/
theorem trialEnds_beginTrial (s : State) (x : Nat) (hn : 2 < s.block.work.n)
    (hs : 1 ≤ s.block.work.s.toNat) :
    State.TrialEnds { s with block := s.block.beginTrial x }
      (Nat.size s.block.work.r + 1 + s.block.work.s.toNat)
      (TrialPasses s.block.work.n s.block.work.r s.block.work.s.toNat x) :=
  trialEnds_mrPow _ { s with block := s.block.beginTrial x } rfl rfl hn hs
    (show 1 < s.block.work.n by omega) (by rw [Block.beginTrial_work, one_mul])

/-! ### MR_TRIAL -/

/-- The last trial to run ends the command with its outcome, in one step more if it passes (R137,
R147). -/
theorem State.TrialEnds.run_last {s : State} {bound : Nat} {passes : Prop}
    (h : s.TrialEnds bound passes) (hlast : s.block.work.trials = s.block.work.eff) :
    ∃ (k : Nat) (work : Working) (verdict : Bool), k ≤ bound + 1 ∧ s.block.work.SameTrial work ∧
      (verdict = true ↔ passes) ∧ EngineRun k s (s.finished work verdict) := by
  obtain ⟨k, work, hk, hsame, hpass, hfail⟩ := h
  by_cases hp : passes
  · have hend : (s.proceed work .mrNext).block.work.trials = (s.proceed work .mrNext).block.work.eff := by
      obtain ⟨_, _, _, _, _, rfl⟩ := hsame
      exact hlast
    have hstep := State.engineStep_mrNext (s := s.proceed work .mrNext) rfl
    rw [Block.mrNextStep_end _ hend] at hstep
    exact ⟨k + 1, work, true, Nat.succ_le_succ hk, hsame, by simp [hp],
      (hpass hp).trans (.single hstep)⟩
  · exact ⟨k, work, false, hk.trans (Nat.le_succ _), hsame, by simp [hp], hfail hp⟩

/-- Settles O48: decomposition, dispatch of the host's witness, its trial, and the end. -/
theorem mrTrialVerdict : Obligations.MrTrialVerdict := by
  intro s r e hc hst hs hlen h5 hodd hdec hr h2 hwa
  have he : (BitVec.ofNat 16 e).toNat = e :=
    toNat_ofNat_exponent hc (win_lt_of_length hlen) h5 hdec
  have hdecomp := run_mrCheck_odd (s := { s with block := s.block.startMrTrial }) rfl h5 hodd rfl hdec hr
  have hbegin := State.engineStep_mrNext (s := { s with block := s.block.startMrTrial }.proceed
    (s.block.startMrTrial.work.decomposed r e) .mrNext) rfl
  rw [Block.mrNextStep_begin _ (show (0 : BitVec 32) ≠ 1 by decide) rfl h2 hwa] at hbegin
  have htrial := trialEnds_beginTrial ({ s with block := s.block.startMrTrial }.proceed
    (s.block.startMrTrial.work.decomposed r e) .mrNext) (win s.block.winA)
    (show 2 < win s.block.winN by omega) (he.symm ▸ one_le_exponent h5 hodd hdec hr)
  obtain ⟨k, work, verdict, hk, ⟨_, _, _, _, _, rfl⟩, hverdict, hrun⟩ := htrial.run_last rfl
  simp only [State.proceed, Working.decomposed, he] at hk hverdict
  refine ⟨_, _, _, verdict.toNat, exec_mrTrial_idle hst,
    ((hdecomp.trans (.single hbegin)).trans hrun).core_run hs, by omega, fun hp => ?_, fun hp => ?_, ?_,
    rfl, rfl, rfl, rfl, rfl, rfl⟩
  · rw [hverdict.mpr hp, Bool.toNat_true]
  · rw [Bool.eq_false_iff.mpr fun hv => hp (hverdict.mp hv), Bool.toNat_false]
  · simp only [State.finished, Block.finishMr, hst]
    rfl

end Sys2Proof.Machine

/-! PROOFS. MR_TEST left to the engine (O49): which of the answers are tried, one run of the trial loop over
the answers, and the command from its submission to its end. -/

namespace Sys2Proof.Machine

/-! ### Trying the answers -/

/-- The answers that become the witness of a trial, in order (R139). -/
def accepted (answers : List Nat) : List Nat := answers.filter fun u => decide (2 ≤ u)

theorem accepted_append (us vs : List Nat) : accepted (us ++ vs) = accepted us ++ accepted vs :=
  List.filter_append us vs

theorem accepted_cons_of_lt {u : Nat} (us : List Nat) (h : u < 2) : accepted (u :: us) = accepted us :=
  List.filter_cons_of_neg (by simp [h])

theorem accepted_cons_of_le {u : Nat} (us : List Nat) (h : 2 ≤ u) :
    accepted (u :: us) = u :: accepted us :=
  List.filter_cons_of_pos (by simp [h])

theorem getLastD_append (us vs : List Nat) (d : Nat) :
    (us ++ vs).getLastD d = vs.getLastD (us.getLastD d) := by
  induction us generalizing d with
  | nil => rfl
  | cons u us ih => rw [List.cons_append, List.getLastD_cons, List.getLastD_cons, ih]

/-- With `need` trials left, the values consumed are `used` and the verdict is the Boolean: a value below 2
is dropped, any other is tried, and the first that does not pass ends it (R137, R142, R147). -/
inductive Tries (passes : Nat → Prop) : Nat → List Nat → Bool → Prop
  | done : Tries passes 0 [] true
  | redraw {need u : Nat} {used : List Nat} {verdict : Bool} (h2 : u < 2)
      (h : Tries passes (need + 1) used verdict) : Tries passes (need + 1) (u :: used) verdict
  | passed {need u : Nat} {used : List Nat} {verdict : Bool} (h2 : 2 ≤ u) (hp : passes u)
      (h : Tries passes need used verdict) : Tries passes (need + 1) (u :: used) verdict
  | failed {need u : Nat} (h2 : 2 ≤ u) (hp : ¬passes u) : Tries passes (need + 1) [u] false

section Tries

variable {passes : Nat → Prop} {need : Nat} {used : List Nat}

/-- The last value consumed is one that is tried. -/
theorem Tries.two_le_getLast {verdict : Bool} (h : Tries passes need used verdict) :
    ∀ x ∈ used.getLast?, 2 ≤ x := by
  induction h with
  | done => simp
  | @redraw need u used verdict _ h ih =>
    cases used with
    | nil => cases h
    | cons v vs => rwa [List.getLast?_cons_cons]
  | @passed need u used verdict h2 _ h ih =>
    cases used with
    | nil => simpa using h2
    | cons v vs => rwa [List.getLast?_cons_cons]
  | failed h2 => simpa using h2

/-- With verdict 1, every trial has run and passed. -/
theorem Tries.all_passed (h : Tries passes need used true) :
    (accepted used).length = need ∧ ∀ x ∈ accepted used, passes x := by
  generalize hv : true = verdict at h
  induction h with
  | done => exact ⟨rfl, by simp [accepted]⟩
  | redraw h2 _ ih =>
    rw [accepted_cons_of_lt _ h2]
    exact ih hv
  | passed h2 hp _ ih =>
    obtain ⟨hlen, hall⟩ := ih hv
    rw [accepted_cons_of_le _ h2]
    exact ⟨by rw [List.length_cons, hlen], List.forall_mem_cons.mpr ⟨hp, hall⟩⟩
  | failed => cases hv

/-- With verdict 0, the last value tried is the first that does not pass. -/
theorem Tries.first_failed (h : Tries passes need used false) :
    ∃ (before : List Nat) (x : Nat), accepted used = before ++ [x] ∧ before.length < need ∧
      (∀ y ∈ before, passes y) ∧ ¬passes x := by
  generalize hv : false = verdict at h
  induction h with
  | done => cases hv
  | redraw h2 _ ih =>
    rw [accepted_cons_of_lt _ h2]
    exact ih hv
  | @passed need u used _ h2 hp _ ih =>
    obtain ⟨before, x, heq, hlen, hall, hx⟩ := ih hv
    rw [accepted_cons_of_le _ h2, heq]
    exact ⟨u :: before, x, rfl, Nat.succ_lt_succ hlen, List.forall_mem_cons.mpr ⟨hp, hall⟩, hx⟩
  | @failed need u h2 hp =>
    rw [accepted_cons_of_le _ h2]
    exact ⟨[], u, rfl, Nat.succ_pos _, by simp, hp⟩

/-- With verdict 1, the values tried are all of the first `need` answers of at least 2. -/
theorem Tries.take_of_true (h : Tries passes need used true) (rest : List Nat) :
    (accepted (used ++ rest)).take need = accepted used := by
  rw [accepted_append, List.take_left' h.all_passed.1]

/-- With verdict 0, the values tried are those up to the first that does not pass. -/
theorem Tries.take_of_false (h : Tries passes need used false) (rest : List Nat) :
    ∃ (before : List Nat) (x : Nat) (after : List Nat),
      (accepted (used ++ rest)).take need = before ++ x :: after ∧ accepted used = before ++ [x] ∧
        (∀ y ∈ before, passes y) ∧ ¬passes x := by
  obtain ⟨before, x, hused, hlt, hall, hx⟩ := h.first_failed
  obtain ⟨m, rfl⟩ := Nat.exists_eq_add_of_lt hlt
  refine ⟨before, x, (accepted rest).take m, ?_, hused, hall, hx⟩
  rw [accepted_append, hused, List.append_assoc, Nat.add_assoc, List.take_length_add_append]
  rfl

end Tries

/-! ### The trial loop -/

/-- `s` with the running command's registers, the random port and the answers of `t`. -/
def State.withRunOf (s t : State) : State :=
  { s with
    answers := t.answers
    block := { s.block with
      work := t.block.work
      st := t.block.st
      rndPending := t.block.rndPending
      rndBound := t.block.rndBound } }

/-- In the trial loop the engine gets from `s` to `t` on the answers `used`: the counters, and the witness
of the last trial begun, are those of the answers, and nothing outside the command changes. -/
structure State.Consumes (s : State) (used : List Nat) (t : State) : Prop where
  answers : s.answers = used ++ t.answers
  frame : t = s.withRunOf t
  op : t.block.work.op = s.block.work.op
  candidate : t.block.work.n = s.block.work.n
  oddPart : t.block.work.r = s.block.work.r
  twos : t.block.work.s = s.block.work.s
  eff : t.block.work.eff = s.block.work.eff
  trials : t.block.work.trials.toNat = s.block.work.trials.toNat + (accepted used).length
  draws : t.block.work.draws.toNat = min (s.block.work.draws.toNat + used.length) 0xFFFFFFFF
  witness : t.block.work.w = (accepted used).getLastD s.block.work.w

/-- No answer is consumed while the counters and the witness stay. -/
theorem State.consumes_nil {s t : State} (hanswers : t.answers = s.answers)
    (hframe : t = s.withRunOf t) (hwork : t.block.work = s.block.work) : s.Consumes [] t where
  answers := hanswers.symm
  frame := hframe
  op := by rw [hwork]
  candidate := by rw [hwork]
  oddPart := by rw [hwork]
  twos := by rw [hwork]
  eff := by rw [hwork]
  trials := by rw [hwork]; rfl
  draws := by
    have := s.block.work.draws.isLt
    rw [hwork, List.length_nil]
    omega
  witness := by rw [hwork]; rfl

theorem State.Consumes.trans {s t u : State} {us vs : List Nat} (h : s.Consumes us t)
    (h' : t.Consumes vs u) : s.Consumes (us ++ vs) u where
  answers := by rw [h.answers, h'.answers, List.append_assoc]
  frame := h'.frame.trans (congrArg (·.withRunOf u) h.frame)
  op := h'.op.trans h.op
  candidate := h'.candidate.trans h.candidate
  oddPart := h'.oddPart.trans h.oddPart
  twos := h'.twos.trans h.twos
  eff := h'.eff.trans h.eff
  trials := by rw [h'.trials, h.trials, accepted_append, List.length_append, Nat.add_assoc]
  draws := by
    rw [h'.draws, h.draws, List.length_append]
    omega
  witness := by rw [h'.witness, h.witness, accepted_append, getLastD_append]

/-- `s` is in the trial loop of an MR_TEST of `n`, with `n - 1 = r * 2^e` decomposed and `need` trials still
to begin, for which the answers suffice. -/
structure State.Testing (n r e need : Nat) (s : State) : Prop where
  op : s.block.work.op = .mrTest
  candidate : s.block.work.n = n
  oddPart : s.block.work.r = r
  twos : s.block.work.s.toNat = e
  left : s.block.work.trials.toNat + need = s.block.work.eff.toNat
  inRange : ∀ u ∈ s.answers, u < n - 1
  enough : need ≤ (accepted s.answers).length

theorem State.Testing.consumes {n r e need need' : Nat} {s t : State} {used : List Nat}
    (h : s.Testing n r e need) (hc : s.Consumes used t) (hneed : need = (accepted used).length + need') :
    t.Testing n r e need' where
  op := hc.op.trans h.op
  candidate := hc.candidate.trans h.candidate
  oddPart := hc.oddPart.trans h.oddPart
  twos := hc.twos ▸ h.twos
  left := by rw [hc.trials, hc.eff, ← h.left, hneed, Nat.add_assoc]
  inRange := fun u hu => h.inRange u (hc.answers ▸ List.mem_append_right used hu)
  enough := by
    have henough := h.enough
    rw [hc.answers, accepted_append, List.length_append] at henough
    omega

/-- The trial loop that `s` is in ends with the verdict of the values tried. -/
def State.TestEnds (n r e need : Nat) (s : State) : Prop :=
  ∃ (k : Nat) (used : List Nat) (p : State) (verdict : Bool), s.Consumes used p ∧
    Tries (TrialPasses n r e) need used verdict ∧
    ((s.block.st = .mrNext → s.block.rndPending = false) → p.block.rndPending = false) ∧
    EngineRun k s (p.finished p.block.work verdict)

/-- The loop goes on from `t` after a run from `s` to `t` on the answers `us`. -/
theorem State.TestEnds.of_run {n r e need need' k : Nat} {s t : State} {us : List Nat}
    (hrun : EngineRun k s t) (hc : s.Consumes us t)
    (htries : ∀ {used verdict}, Tries (TrialPasses n r e) need' used verdict →
      Tries (TrialPasses n r e) need (us ++ used) verdict)
    (hpending : t.block.st = .mrNext → t.block.rndPending = false)
    (h : t.TestEnds n r e need') : s.TestEnds n r e need := by
  obtain ⟨m, used, p, verdict, hc', htries', hpending', hrun'⟩ := h
  exact ⟨k + m, us ++ used, p, verdict, hc.trans hc', htries htries', fun _ => hpending' hpending,
    hrun.trans hrun'⟩

section Loop

variable {n r e : Nat}

/-- In MR_NEXT the loop ends with verdict 1, or goes on to MR_DRAW (R137). -/
theorem testEnds_mrNext {s : State} {need : Nat} (hst : s.block.st = .mrNext)
    (h : s.Testing n r e need)
    (hdraw : ∀ (t : State) (m : Nat), t.answers = s.answers → t.block.st = .mrDraw →
      t.block.rndBound = n - 1 → t.Testing n r e (m + 1) → t.TestEnds n r e (m + 1)) :
    s.TestEnds n r e need := by
  have hstep := State.engineStep_mrNext hst
  have hleft := h.left
  cases need with
  | zero =>
    rw [Block.mrNextStep_end _ (BitVec.eq_of_toNat_eq hleft)] at hstep
    exact ⟨1, [], s, true, State.consumes_nil rfl rfl rfl, .done, fun hp => hp hst, .single hstep⟩
  | succ m =>
    have hne : s.block.work.trials ≠ s.block.work.eff := fun heq => by
      rw [heq] at hleft
      omega
    rw [Block.mrNextStep_request _ hne h.op] at hstep
    have hc : s.Consumes [] { s with block := s.block.rndRequest (s.block.work.n - 1) } :=
      State.consumes_nil rfl rfl rfl
    exact .of_run (.single hstep) hc id nofun
      (hdraw _ m rfl rfl (congrArg (· - 1) h.candidate) (h.consumes hc (Nat.zero_add _).symm))

section Draw

variable {s : State} {u : Nat} {us : List Nat} (hu : u < s.block.rndBound)

include hu

/-- A value below 2 is counted and nothing else (R142). -/
theorem State.consumes_redraw (ha : s.answers = u :: us) (h2 : u < 2) :
    s.Consumes [u] { s with block := s.block.mrDrawStep u, answers := us } := by
  rw [Block.mrDrawStep_redraw hu h2]
  exact
    { answers := ha, frame := rfl, op := rfl, candidate := rfl, oddPart := rfl, twos := rfl, eff := rfl
      trials := by rw [accepted_cons_of_lt _ h2]; rfl
      draws := satIncr_toNat _
      witness := by rw [accepted_cons_of_lt _ h2]; rfl }

/-- Any other value is counted and is the witness of a trial, which is counted too (R142, R144). -/
theorem State.consumes_trial (ha : s.answers = u :: us) (h2 : 2 ≤ u) {work : Working}
    (hleft : s.block.work.trials.toNat < s.block.work.eff.toNat)
    (hsame : (s.block.mrDrawStep u).work.SameTrial work) :
    s.Consumes [u]
      (State.proceed { s with block := s.block.mrDrawStep u, answers := us } work .mrNext) := by
  rw [Block.mrDrawStep_begin hu h2] at hsame ⊢
  obtain ⟨_, _, _, _, _, rfl⟩ := hsame
  exact
    { answers := ha, frame := rfl, op := rfl, candidate := rfl, oddPart := rfl, twos := rfl, eff := rfl
      trials := by rw [accepted_cons_of_le _ h2]; exact toNat_add_one_of_lt hleft
      draws := satIncr_toNat _
      witness := by rw [accepted_cons_of_le _ h2]; rfl }

/-- The trial of a value just drawn ends with its outcome (R147). -/
theorem trialEnds_mrDrawStep (h2 : 2 ≤ u) (hn : 2 < s.block.work.n) (hs : 1 ≤ s.block.work.s.toNat) :
    State.TrialEnds { s with block := s.block.mrDrawStep u, answers := us }
      (Nat.size s.block.work.r + 1 + s.block.work.s.toNat)
      (TrialPasses s.block.work.n s.block.work.r s.block.work.s.toNat u) := by
  rw [Block.mrDrawStep_begin hu h2]
  exact trialEnds_beginTrial { s with
    block := { s.block with
      work := { s.block.work with draws := satIncr s.block.work.draws }, rndPending := false }
    answers := us } u hn hs

end Draw

/-- From MR_DRAW the loop consumes answers up to the first that does not pass its trial, or the last trial
to run (R142, R147). -/
theorem testEnds_mrDraw (h5 : 5 ≤ n) (he : 1 ≤ e) (answers : List Nat) : ∀ (s : State) (need : Nat),
    s.answers = answers → s.block.st = .mrDraw → s.block.rndBound = n - 1 →
    s.Testing n r e (need + 1) → s.TestEnds n r e (need + 1) := by
  induction answers with
  | nil =>
    intro s need ha _ _ h
    have henough := h.enough
    rw [ha] at henough
    exact absurd henough (Nat.not_succ_le_zero need)
  | cons u us ih =>
    intro s need ha hst hbound h
    have hstep := State.engineStep_draw_cons hst ha
    have hu : u < s.block.rndBound := hbound ▸ h.inRange u (by simp [ha])
    by_cases h2 : u < 2
    · have hc := State.consumes_redraw hu ha h2
      have hneed : need + 1 = (accepted [u]).length + (need + 1) := by
        rw [accepted_cons_of_lt _ h2]
        exact (Nat.zero_add _).symm
      have hst' : (s.block.mrDrawStep u).st = .mrDraw := by rw [Block.mrDrawStep_redraw hu h2]; rfl
      have hbound' : (s.block.mrDrawStep u).rndBound = n - 1 := by
        rw [Block.mrDrawStep_redraw hu h2]
        exact hbound
      exact .of_run (.single hstep) hc (.redraw h2) (fun hnext => by simp [hst'] at hnext)
        (ih _ need rfl hst' hbound' (h.consumes hc hneed))
    · have h2 : 2 ≤ u := Nat.not_lt.mp h2
      have hleft := h.left
      obtain ⟨k, work, -, hsame, hpass, hfail⟩ := trialEnds_mrDrawStep (us := us) hu h2
        (by rw [h.candidate]; omega) (by rwa [h.twos])
      rw [h.candidate, h.oddPart, h.twos] at hpass hfail
      have hc := State.consumes_trial hu ha h2 (by omega) hsame
      have hpending : (s.block.mrDrawStep u).rndPending = false := by
        rw [Block.mrDrawStep_begin hu h2]
        rfl
      by_cases hp : TrialPasses n r e u
      · have hneed : need + 1 = (accepted [u]).length + need := by
          rw [accepted_cons_of_le _ h2]
          exact Nat.add_comm _ _
        exact .of_run (.step hstep (hpass hp)) hc (.passed h2 hp) (fun _ => hpending)
          (testEnds_mrNext rfl (h.consumes hc hneed) fun t m hta => ih t m hta)
      · exact ⟨k + 1, [u], _, false, hc, .failed h2 hp, fun _ => hpending, .step hstep (hfail hp)⟩

end Loop

/-! ### The command -/

/-- With the counters 0 at the start of the loop, WITNESS takes the last value tried, or 0 (R148). -/
theorem State.Consumes.witness_readback {s p : State} {used : List Nat} (h : s.Consumes used p)
    (h0 : s.block.work.trials = 0#32) :
    (if p.block.work.trials = 0#32 then 0 else p.block.work.w) = (accepted used).getLastD 0 := by
  have htrials := h.trials
  rw [h0, BitVec.toNat_zero, Nat.zero_add] at htrials
  have hw := h.witness
  cases hused : accepted used with
  | nil =>
    rw [hused] at htrials
    rw [if_pos (BitVec.eq_of_toNat_eq htrials), List.getLastD_nil]
  | cons x xs =>
    rw [hused] at htrials hw
    have hne : p.block.work.trials ≠ 0#32 := fun h0 => by simp [h0] at htrials
    rw [if_neg hne, hw, List.getLastD_cons, List.getLastD_cons]

/-- Settles O49: decomposition, the trial loop over the answers, and the readbacks of its end. -/
theorem mrTestVerdict : Obligations.MrTestVerdict := by
  intro s r e tried hconf hst hs hlen h5 hodd hdec hr hi hrange henough htried
  have he : (BitVec.ofNat 16 e).toNat = e :=
    toNat_ofNat_exponent hconf (win_lt_of_length hlen) h5 hdec
  have hdecomp := run_mrCheck_odd (s := { s with block := s.block.startMrTest }) rfl h5 hodd rfl hdec hr
  have htesting : State.Testing (win s.block.winN) r e (s.block.iter.toNat - 1)
      ({ s with block := s.block.startMrTest }.proceed
        (s.block.startMrTest.work.decomposed r e) .mrNext) :=
    { op := rfl, candidate := rfl, oddPart := rfl, twos := he
      left := (Nat.zero_add _).trans (toNat_iter_sub_one hi).symm
      inRange := hrange, enough := henough }
  obtain ⟨k, used, p, verdict, hc, htries, hpending, hrun⟩ := testEnds_mrNext rfl htesting
    fun t m ha => testEnds_mrDraw h5 (one_le_exponent h5 hodd hdec hr) _ t m ha
  have hconfig : p.config = s.config := (congrArg State.config hc.frame).trans rfl
  have hwitness := hc.witness_readback rfl
  have htrials := hc.trials.trans (Nat.zero_add _)
  have hanswers : s.answers = used ++ p.answers := hc.answers
  rw [hanswers] at htried
  refine ⟨_, _, _, used, exec_mrTest_started hst hi, (hdecomp.trans hrun).core_run hs, hanswers,
    htries.two_le_getLast, ?_, fun hp => hpending fun _ => hp, htrials,
    hc.draws.trans (congrArg (min · _) (Nat.zero_add _)), ?_⟩
  · refine (congrArg (·.finished p.block.work verdict) hc.frame).trans ?_
    have htwos : p.block.work.s = BitVec.ofNat 16 e := hc.twos
    simp only [State.finished, State.withRunOf, State.proceed, Block.finishMr, htwos, hconfig, hst]
    rfl
  · simp only [State.finished, Block.finishMr, hwitness, hconfig, htrials]
    cases verdict with
    | true =>
      obtain ⟨hcount, hall⟩ := htries.all_passed
      obtain rfl : tried = accepted used := htried.trans (htries.take_of_true p.answers)
      exact ⟨fun _ => ⟨rfl, hcount, rfl⟩, fun hnot => absurd hall hnot⟩
    | false =>
      obtain ⟨before, x, after, htake, hused, hall, hx⟩ := htries.take_of_false p.answers
      obtain rfl : tried = before ++ x :: after := htried.trans htake
      rw [hused, List.getLastD_concat, List.length_append]
      exact ⟨fun hpass => absurd (hpass x (by simp)) hx,
        fun _ => ⟨rfl, x, before, after, rfl, hall, hx, rfl, rfl⟩⟩

end Sys2Proof.Machine

/-! PROOFS. Miller-Rabin on a prime candidate: no step ends the command with verdict 0 (O50). -/

namespace Sys2Proof.Machine

/-! ### Square roots of 1 modulo a prime -/

/-- Modulo a prime, the numbers whose square is 1 are 1 and `p - 1`. -/
theorem eq_one_or_eq_pred_of_mulmod {p y : Nat} (hp : p.Prime) (hy : y < p) (hsq : mulmod y y p = 1) :
    y = 1 ∨ y = p - 1 := by
  have hpos : 0 < y := Nat.pos_of_ne_zero fun h0 => by simp [mulmod, h0] at hsq
  have hmod : y * y ≡ 1 * 1 [MOD p] := hsq.trans (Nat.mod_eq_of_lt hp.one_lt).symm
  have hdvd : p ∣ (y + 1) * (y - 1) := by
    rw [← Nat.mul_self_sub_mul_self_eq]
    exact (Nat.modEq_iff_dvd' (Nat.mul_le_mul hpos hpos)).mp hmod.symm
  rcases hp.dvd_mul.mp hdvd with h | h
  · have := Nat.le_of_dvd (by omega) h
    omega
  · have := Nat.eq_zero_of_dvd_of_lt h (by omega)
    omega

/-- A witness of a prime candidate is coprime to it, so its power `n - 1` is 1 (Fermat). -/
theorem pow_pred_mod_prime {p w : Nat} (hp : p.Prime) (hw : w ≠ 0) (hlt : w < p) :
    w ^ (p - 1) % p = 1 := by
  have hcop : w.Coprime p := (Nat.coprime_of_lt_prime hw hlt hp).symm
  have h := Nat.ModEq.pow_totient hcop
  rw [Nat.totient_prime hp] at h
  exact Eq.trans h (Nat.mod_eq_of_lt hp.one_lt)

/-! ### A running command on a prime -/

section PrimeCandidate

variable {c : Config} {k : Block} (h : k.Inv c) (hprime : k.work.n.Prime)

include h hprime

/-- On a prime, a chain value whose square is 1 is `n - 1`: it is not 1, or the chain would have ended
(R146). -/
theorem Block.Inv.chain_eq_pred_of_square (hst : k.st = .mrChain)
    (hsq : mulmod k.work.y k.work.y k.work.n = 1) : k.work.y = k.work.n - 1 := by
  obtain ⟨-, hj, -, hval, hne1, -⟩ := Block.seqInv_mrChain hst h.seq
  have hlt : k.work.y < k.work.n := hval ▸ Nat.mod_lt _ hprime.pos
  have hy1 : k.work.y ≠ 1 := hval ▸ hne1 _ (Nat.sub_lt hj Nat.one_pos)
  exact (eq_one_or_eq_pred_of_mulmod hprime hlt hsq).resolve_left hy1

/-- On a prime, the square of the chain's last value is 1 (R147, Fermat). -/
theorem Block.Inv.chain_end_square (hst : k.st = .mrChain)
    (hj : k.work.s.toNat < k.work.j.toNat + 1) : mulmod k.work.y k.work.y k.work.n = 1 := by
  obtain ⟨⟨⟨-, hdec, -⟩, -, -, h2, hw⟩, hj1, hjs, hval, -⟩ := Block.seqInv_mrChain hst h.seq
  have hjs : k.work.j.toNat = k.work.s.toNat := by omega
  rw [hval, mulmod_chain_square _ _ _ hj1, hjs, ← hdec]
  exact pow_pred_mod_prime hprime (by omega) (by omega)

/-- The engine's move that ends a Miller-Rabin command on a prime without an error writes 1: the special
cases of MR_CHECK are decided right, and the chain never ends short of `n - 1`. -/
theorem Block.Inv.verdict_of_prime (hop : k.work.op ≠ .powmod) {l : Block}
    (hm : Block.EngineMove c.limbs k l) (hidle : l.st = .idle) (herr : l.errCode = .noError) :
    l.result = toLimbs c.limbs 1 := by
  cases hm
  case allPassed => rfl
  case checkSmall hst hn =>
    have hn23 : k.work.n = 2 ∨ k.work.n = 3 := by
      have := hprime.two_le
      have : k.work.n ≠ 4 := fun h4 => absurd (h4 ▸ hprime) (by decide)
      omega
    rcases hn23 with hn | hn <;> simp [hn]
  case checkEven hn heven =>
    have := hprime.eq_two_or_odd
    omega
  case squareToOne hst _ hy h1 => exact absurd (h.chain_eq_pred_of_square hprime hst h1) hy
  case chainEnd hst hj hy =>
    exact absurd (h.chain_eq_pred_of_square hprime hst (h.chain_end_square hprime hst hj)) hy
  case pmEnd hst _ => exact absurd (Block.seqInv_pmLoop hst h.seq).1 hop
  -- Every other move leaves the command running or ends it with an error.
  all_goals simp_all

end PrimeCandidate

/-- A host write, SRST apart, leaves a running command running or aborts it (R94, R184). -/
theorem Block.HostMove.st_or_aborted {limbs : Nat} {val : Word} {reg : Reg} {k l : Block}
    (hm : Block.HostMove limbs val k reg l) (hbusy : k.st ≠ .idle) :
    l.st = k.st ∨ l.errCode = .aborted := by
  cases hm
  case abort => exact .inr rfl
  case word => exact .inl (by simp)
  case refused hst _ _ => exact absurd hst hbusy
  case powmod hst _ => exact absurd hst hbusy
  case mrTest hst _ => exact absurd hst hbusy
  case mrTrial hst => exact absurd hst hbusy
  all_goals exact .inl rfl

/-- Settles O50: a reset does not set DONE and the host can only abort, so the engine ended the command,
and on a prime it does so with verdict 1. -/
theorem primeNeverGetsVerdictZero : Obligations.PrimeNeverGetsVerdictZero := by
  intro s t ⟨_, hinv⟩ hstep hbusy hop hprime hidle hdone herr
  rcases step_cases hstep with ⟨hm, -⟩ | ⟨hb, -⟩ | ⟨hb, -⟩ | ⟨_, _, _, _, -, -, -, hm, -⟩
  · exact hinv.verdict_of_prime hprime hop hm hidle herr
  · rw [hb] at hdone
    cases hdone
  · exact absurd (hb ▸ hidle) hbusy
  · rcases hm.st_or_aborted hbusy with hst | habort
    · exact absurd (hst ▸ hidle) hbusy
    · simp [habort] at herr

end Sys2Proof.Machine

/-! PROOFS. Control and status: STATUS stays consistent (O39), the actions of CTRL (O17 to O19), clearing
STATUS (O20), and the words the host reads (O23). -/

namespace Sys2Proof.Machine

/-! ### STATUS stays consistent -/

/-- A command that has ended with DONE may leave any error code (R188). -/
theorem Block.statusConsistent_of_ended {k : Block} (hst : k.st = .idle) (hdone : k.done = true) :
    k.StatusConsistent :=
  ⟨fun _ => hdone, fun hbusy => absurd hst (k.busy_iff.mp hbusy)⟩

/-- With DONE and ERR_CODE clear a command may run or not (R188). -/
theorem Block.statusConsistent_of_cleared {k : Block} (hdone : k.done = false)
    (herr : k.errCode = .noError) : k.StatusConsistent :=
  ⟨fun hne => absurd herr hne, fun _ => ⟨hdone, herr⟩⟩

/-- The engine moves only while a command runs (R14). -/
theorem Block.EngineMove.st_ne_idle {limbs : Nat} {k l : Block} (h : Block.EngineMove limbs k l) :
    k.st ≠ .idle := by
  cases h <;> simp [*]

/-- An engine step ends the command with DONE, or leaves DONE and ERR_CODE alone. -/
theorem Block.EngineMove.status_cases {limbs : Nat} {k l : Block} (h : Block.EngineMove limbs k l) :
    (l.st = .idle ∧ l.done = true) ∨ (l.done = k.done ∧ l.errCode = k.errCode) := by
  cases h
  case pmEnd | checkSmall | checkEven | allPassed | outOfRange | drawFault | squareToOne | chainEnd =>
    exact .inl ⟨rfl, rfl⟩
  all_goals exact .inr ⟨rfl, rfl⟩

theorem Block.StatusConsistent.engineMove {limbs : Nat} {k l : Block} (h : k.StatusConsistent)
    (hm : Block.EngineMove limbs k l) : l.StatusConsistent := by
  rcases hm.status_cases with ⟨hst, hdone⟩ | ⟨hdone, herr⟩
  · exact Block.statusConsistent_of_ended hst hdone
  · obtain ⟨hclear, hnone⟩ := h.2 (k.busy_iff.mpr hm.st_ne_idle)
    exact Block.statusConsistent_of_cleared (hdone.trans hclear) (herr.trans hnone)

/-- A host write, SRST apart, ends or accepts a command, clears STATUS, or leaves DONE, ERR_CODE and the
sequencer state alone. -/
theorem Block.StatusConsistent.hostMove {limbs : Nat} {val : Word} {reg : Reg} {k l : Block}
    (h : k.StatusConsistent) (hm : Block.HostMove limbs val k reg l) : l.StatusConsistent := by
  cases hm with
  | ignored => exact h
  | status => exact h.clearStatus val
  | iter => exact h.congr rfl rfl rfl
  | word x i => exact h.congr (by simp) (by simp) (by simp)
  | irqEn => exact h.congr rfl rfl rfl
  | abort => exact Block.statusConsistent_of_ended rfl rfl
  | overrun => exact h.congr rfl rfl rfl
  | refused => exact Block.statusConsistent_of_ended rfl rfl
  | powmod => exact Block.statusConsistent_of_cleared rfl rfl
  | mrTest => exact Block.statusConsistent_of_cleared rfl rfl
  | mrTrial => exact Block.statusConsistent_of_cleared rfl rfl

/-- Settles O39: a reset clears both fields, and every other move of the block is the engine's or the
host's. -/
theorem statusStaysConsistent : Obligations.StatusStaysConsistent := by
  refine ⟨fun _ => Block.statusConsistent_of_cleared rfl rfl, fun s t hstatus hstep => ?_⟩
  rcases step_cases hstep with ⟨hm, -⟩ | ⟨hb, -⟩ | ⟨hb, -⟩ | ⟨_, _, _, _, -, -, -, hm, -⟩
  · exact hstatus.engineMove hm
  · exact hb ▸ Block.statusConsistent_of_cleared rfl rfl
  · exact hb ▸ hstatus
  · exact hstatus.hostMove hm

/-! ### The STATUS word as a number -/

/-- `++` on bits weighs its upper part by the width of the lower one. -/
theorem toNat_append_eq_add {m n : Nat} (x : BitVec m) (y : BitVec n) :
    (x ++ y).toNat = 2 ^ n * x.toNat + y.toNat := by
  rw [BitVec.toNat_append, Nat.shiftLeft_eq, Nat.mul_comm, Nat.two_pow_add_eq_or_of_lt y.isLt]

theorem toNat_decide_ne {α : Type} [DecidableEq α] (a b : α) :
    (decide (a ≠ b)).toNat = if a = b then 0 else 1 := by
  split <;> simp [*]

/-- STATUS as a number, each field at the weight of its lowest bit (R25). -/
theorem Block.status_toNat (k : Block) :
    k.status.toNat = (if k.st = .idle then 0 else 1) + 2 * k.done.toNat +
      4 * (if k.errCode = .noError then 0 else 1) + 8 * k.ovr.toNat +
      2 ^ 8 * k.errCode.code.toNat + 2 ^ 16 * k.st.code.toNat := by
  show (0#12 ++ k.st.code ++ 0#4 ++ k.errCode.code ++ 0#4 ++ BitVec.ofBool k.ovr ++
    BitVec.ofBool k.err ++ BitVec.ofBool k.done ++ BitVec.ofBool k.busy).toNat = _
  simp only [toNat_append_eq_add, BitVec.toNat_ofBool, BitVec.toNat_ofNat, Block.err, Block.busy,
    toNat_decide_ne]
  omega

/-! ### Writes to CTRL -/

/-- Settles O17: the three cases of a CTRL write. -/
theorem ctrlWriteEffect : Obligations.CtrlWriteEffect := by
  intro s x
  obtain ⟨t, ht⟩ := writeReg_next .ctrl x s
  rw [hostStep_wr_of_access (reg := .ctrl) rfl, ht]
  rcases writeCtrl_cases ht with ⟨hsrst, rfl⟩ | ⟨hsrst, habort, rfl⟩ | ⟨hsrst, habort, rfl⟩
  · simp only [hsrst, if_true]
  · simp only [hsrst, habort, Bool.false_eq_true, if_true, if_false]
    rfl
  · simp only [hsrst, habort, Bool.false_eq_true, if_false]
    rfl

theorem exec_abort (irqEn : Bool) (ignored : BitVec 29) (s : State) :
    exec (.abort irqEn ignored) s = .next { s with block := (s.block.setIrqEn irqEn).abort } := rfl

theorem Block.abort_busy {k : Block} (h : k.st ≠ .idle) : k.abort = k.fail .aborted :=
  if_pos (k.busy_iff.mpr h)

theorem Block.abort_idle {k : Block} (h : k.st = .idle) : k.abort = k :=
  if_neg (Bool.eq_false_iff.mp (k.not_busy_iff.mpr h))

/-- Only CTRL shows IRQ_EN (R24, R180). -/
theorem readReg_setIrqEn (s : State) (irqEn : Bool) {reg : Reg} (hreg : reg ≠ .ctrl) :
    readReg { s with block := s.block.setIrqEn irqEn } reg = readReg s reg := by
  cases reg with
  | ctrl => exact absurd rfl hreg
  | word x i => cases x <;> rfl
  | _ => rfl

/-- An abort shows in STATUS alone (R184). -/
theorem readReg_abort (s : State) {reg : Reg} (hreg : reg ≠ .status) :
    readReg { s with block := s.block.abort } reg = readReg s reg := by
  rcases s.block.abort_cases with ⟨-, ha⟩ | ⟨-, ha⟩ <;> rw [ha]
  exact readReg_congr (s := s) (t := { s with block := s.block.fail .aborted }) rfl rfl
    (Block.SameOperands.refl s.block) (Block.SameResults.refl s.block) hreg

/-- Settles O18: CTRL and STATUS are the words at the offsets 0x008 and 0x00C. -/
theorem abortEffect : Obligations.AbortEffect := by
  intro s irqEn ignored
  rw [exec_abort]
  refine ⟨fun hst => ?_, fun hst => ?_, fun t a ht ha => ?_⟩
  · rw [Block.abort_busy (k := s.block.setIrqEn irqEn) hst]
    rfl
  · rw [Block.abort_idle (k := s.block.setIrqEn irqEn) hst]
    rfl
  · cases ht
    refine byteAt_congr rfl fun reg hbase hoff => ?_
    have hreg : reg ≠ .ctrl ∧ reg ≠ .status := by
      unfold effectiveAddress at ha
      constructor <;> rintro rfl <;> rw [Reg.offset] at hoff <;> omega
    obtain ⟨hctrl, hstatus⟩ := hreg
    exact (readReg_abort { s with block := s.block.setIrqEn irqEn } hstatus).trans
      (readReg_setIrqEn s irqEn hctrl)

theorem Block.reset_status (limbs : Nat) (work : Working) (rndBound : Nat) :
    (Block.reset limbs work rndBound).status = 0 :=
  BitVec.eq_of_toNat_eq (Block.status_toNat _)

/-- A machine whose block is the reset state of its configuration is at the reset table, whatever the
unspecified registers hold (R230). -/
theorem State.atReset_of_block_reset {s : State} {work : Working} {bound : Nat}
    (h : s.block = Block.reset s.config.limbs work bound) : s.AtReset := by
  unfold State.AtReset
  rw [readReg, readReg, readReg, h]
  exact ⟨rfl, rfl, rfl, rfl, rfl, rfl, Block.reset_status _ _ _, rfl, rfl, rfl, rfl, rfl,
    fun x => by cases x <;> rfl, rfl, rfl, rfl⟩

/-- Settles O19. -/
theorem srstEffect : Obligations.SrstEffect :=
  fun s _ _ _ =>
    ⟨s.resetBlock, rfl, State.atReset_of_block_reset s.resetBlock_block, rfl, rfl, rfl, rfl, rfl⟩

/-! ### Writes to STATUS -/

/-- Clearing a flag is masking it with the complement of its bit (R187). -/
theorem Block.clearStatus_eq_mask (x : Word) (k : Block) :
    k.clearStatus x = { k with
      done := k.done && !x.getLsbD 1
      errCode := if x.getLsbD 1 = true then .noError else k.errCode
      ovr := k.ovr && !x.getLsbD 3 } := by
  have hmask (bit flag : Bool) : (if bit then false else flag) = (flag && !bit) := by
    cases bit <;> simp
  simp only [Block.clearStatus, hmask]

/-- Settles O20. -/
theorem statusWriteClears : Obligations.StatusWriteClears := by
  intro s x
  rw [hostStep_wr_of_access (reg := .status) rfl, writeReg, Block.clearStatus_eq_mask]

/-! ### Reads -/

theorem readReg_ctrl (s : State) : readReg s .ctrl = if s.block.irqEn = true then 1 else 0 := by
  rw [readReg]
  cases s.block.irqEn <;> rfl

/-- Settles O23: each row of the table by the register its offset reaches. -/
theorem readReturnsRegister : Obligations.ReadReturnsRegister := by
  intro s
  refine ⟨?_, ?_⟩
  · have hread {off : Nat} {v : Word} (reg : Reg) (hacc : access 4 off = .ok reg)
        (hv : v = readReg s reg) :
        hostStep (.rd 4 off) s = .next { s with received := v :: s.received } :=
      hv ▸ hostStep_rd_of_access hacc s
    rintro off v (⟨rfl, rfl⟩ | ⟨rfl, rfl⟩ | ⟨rfl, rfl⟩ | ⟨rfl, rfl⟩ | ⟨rfl, rfl⟩ | ⟨rfl, rfl⟩ |
      ⟨rfl, rfl⟩ | ⟨rfl, rfl⟩ | ⟨rfl, rfl⟩)
    · exact hread .id rfl rfl
    · exact hread .param rfl rfl
    · exact hread .ctrl rfl (readReg_ctrl s).symm
    · refine hread .status rfl ?_
      rw [← Block.status_toNat, BitVec.ofNat_toNat, BitVec.setWidth_eq]
      rfl
    · exact hread .cmd rfl rfl
    · exact hread .iter rfl rfl
    · exact hread .sValue rfl (BitVec.ofNat_toNat 32 s.block.sValue)
    · exact hread .trialCount rfl rfl
    · exact hread .drawCount rfl rfl
  · intro x base i hx hi
    obtain rfl : base = x.base := by
      rcases hx with ⟨rfl, rfl⟩ | ⟨rfl, rfl⟩ | ⟨rfl, rfl⟩ | ⟨rfl, rfl⟩ | ⟨rfl, rfl⟩ <;> rfl
    exact hostStep_rd_of_access (access_word x hi) s

end Sys2Proof.Machine

/-! PROOFS. The interrupt output (O22): DONE rises only when a command ends. -/

namespace Sys2Proof.Machine

/-- `irq` is the conjunction of IRQ_EN and DONE (R207). -/
theorem Block.irq_iff (k : Block) : k.irq = true ↔ k.irqEn = true ∧ k.done = true :=
  Bool.and_eq_true_iff

/-- After a host write, SRST apart, with DONE set, the block is idle or DONE was set before: only an abort
and a refusal set it, and both leave the block idle (R187, R202). -/
theorem Block.HostMove.idle_or_done {limbs : Nat} {val : Word} {reg : Reg} {k l : Block}
    (hm : Block.HostMove limbs val k reg l) (hdone : l.done = true) : l.st = .idle ∨ k.done = true := by
  cases hm with
  | ignored | iter | irqEn | overrun => exact .inr hdone
  | status =>
    rw [Block.clearStatus_eq_mask] at hdone
    exact .inr (Bool.and_eq_true_iff.mp hdone).1
  | word x i => exact .inr (by simpa using hdone)
  | abort | refused => exact .inl rfl
  | powmod | mrTest | mrTrial => cases hdone

/-- A step in which DONE rises leaves the block idle, whoever moves (R95, R202). -/
theorem idle_of_done_rises {s t : State} (h : step s = .next t) (hclear : s.block.done = false)
    (hdone : t.block.done = true) : t.block.st = .idle := by
  have hrises : t.block.done ≠ s.block.done := by simp [hclear, hdone]
  rcases step_cases h with ⟨hm, -⟩ | ⟨hb, -⟩ | ⟨hb, -⟩ | ⟨_, _, _, _, -, -, -, hm, -⟩
  · rcases hm.status_cases with ⟨hidle, -⟩ | ⟨hkeep, -⟩
    · exact hidle
    · exact absurd hkeep hrises
  · exact congrArg Block.st hb
  · exact absurd (congrArg Block.done hb) hrises
  · exact (hm.idle_or_done hdone).resolve_right (by simp [hclear])

/-- Settles O22: where DONE was clear it rose, so a command ended; where it was set, IRQ_EN was the clear
one of the two. -/
theorem interruptRisesOnlyAtEnds : Obligations.InterruptRisesOnlyAtEnds := by
  refine ⟨fun s => s.block.irq_iff, fun s t hstep hlow hhigh => ?_⟩
  obtain ⟨hen, hdone⟩ := t.block.irq_iff.mp hhigh
  cases hold : s.block.done with
  | false => exact .inl ⟨rfl, hdone, idle_of_done_rises hstep hold hdone⟩
  | true =>
    have hdisabled : s.block.irqEn = false := by simpa [Block.irq, hold] using hlow
    exact .inr ⟨rfl, hdisabled, hen⟩

end Sys2Proof.Machine

/-! PROOFS. The reset state: the reset table holds of it however the block was reset (O7), and it meets the
invariant of the machine (O8). -/

namespace Sys2Proof.Machine

/-! ### The reset table -/

theorem State.atReset_resetWith (c : Config) : (State.resetWith c).AtReset :=
  State.atReset_of_block_reset (s := State.resetWith c) rfl

theorem State.atReset_resetBlock (s : State) : s.resetBlock.AtReset :=
  State.atReset_of_block_reset s.resetBlock_block

/-- SRST is decided by bit 2 alone (R183). -/
theorem hostStep_wr_srst {x : Word} (hsrst : x.getLsbD 2 = true) (s : State) :
    hostStep (.wr 4 0x008 x) s = .next s.resetBlock := by
  rw [ctrlWriteEffect s x, if_pos hsrst]

/-- The turn of the reset line (R230). -/
theorem step_reset {s : State} {ts : List Turn} (hs : s.schedule = .reset :: ts) :
    step s = .next { s with schedule := ts }.resetBlock := by
  simp only [step, takeTurn, hs]

/-- Settles O7: SRST and the reset line are the same reset of the block. -/
theorem resetTableHolds : Obligations.ResetTableHolds := by
  refine ⟨State.atReset_resetWith, fun s x hsrst => ?_, fun s ts hs => ?_⟩
  · exact ⟨s.resetBlock, hostStep_wr_srst hsrst s, s.atReset_resetBlock, rfl⟩
  · exact ⟨_, step_reset hs, State.atReset_resetBlock _, rfl⟩

/-! ### The invariant -/

theorem Working.fits_zero (width : Nat) : Working.zero.Fits width := by
  have hpos : 0 < 2 ^ width := Nat.two_pow_pos width
  exact ⟨hpos, hpos, hpos, hpos, hpos, hpos, hpos, hpos⟩

theorem State.inv_resetWith {c : Config} (hc : c.Legal) : (State.resetWith c).Inv :=
  ⟨hc, Block.inv_reset (Working.fits_zero c.width) (Nat.two_pow_pos c.width)⟩

/-- Settles O8: `State.reset` is the reset state of the smallest configuration, which is legal (R6, R7). -/
theorem resetMeetsInvariant : Obligations.ResetMeetsInvariant := by
  have hlegal : Config.smallest.Legal := by decide
  exact ⟨State.inv_resetWith hlegal, fun _ hc => State.inv_resetWith hc⟩

end Sys2Proof.Machine
